-- ==== Sys2Proof/Word.lean ====
section
/-! DEFINITION. The word types of the core (00_scope.md section 5) and the raw input words of the three
formats `W`, `W2` and `K` (30_encoding.md rules R71, R73, R86). -/

namespace Sys2Proof

/-- A byte: an 8-bit unsigned value (00_scope.md R12, "Values"). -/
abbrev Byte := BitVec 8

/-- A word16: a 16-bit unsigned value (00_scope.md R12, "Values"). -/
abbrev Word16 := BitVec 16

/-- The three formats of spec/opcode_table.json: `W` is one wire byte (R71), `W2` a two-byte wire symbol
(R73), `K` a 12-bit command word (R86). -/
inductive Format where
  | W
  | W2
  | K
deriving DecidableEq, Repr

/-- What the environment presents in one step, before decoding: a wire byte to the decoder (format `W`,
R71), two wire bytes grouped as one symbol with the byte sent first in bits 15:8 (format `W2`, R73), or a
command word (format `K`, R86). -/
inductive InputWord where
  | wire (b : Byte)
  | symbol (w : BitVec 16)
  | command (k : BitVec 12)
deriving DecidableEq, Repr

end Sys2Proof
end

