-- ==== Sys2Proof/Config.lean ====
section
/-! DEFINITION. The nine implementation parameters (00_scope.md section 4), their value for this hardware,
and when a configuration is well formed (R11). Configuration is not state (10_state.md R31). -/

namespace Sys2Proof

/-- The five constants of the CRC-16 generator (00_scope.md R10; general record: 40_crc16.md R113). -/
structure CrcParams where
  /-- `CRC_POLY`, the polynomial without its x^16 term. -/
  poly : Word16
  /-- `CRC_INIT`, the register value before the first byte. -/
  init : Word16
  /-- `CRC_REFIN`: reverse the bits of every input byte. -/
  refin : Bool
  /-- `CRC_REFOUT`: reverse the register before the final exclusive-or. -/
  refout : Bool
  /-- `CRC_XOROUT`, the final exclusive-or. -/
  xorout : Word16
deriving DecidableEq, Repr

/-- The configuration record: the parameters that a claim can name (00_scope.md R7 to R10). -/
structure Config where
  /-- `DELIM`, the frame delimiter (R7). -/
  delim : Byte
  /-- `ESC`, the stuffing escape byte (R7). -/
  esc : Byte
  /-- `MAX_FRAME`, the length in bytes of the accumulation buffer (R8). -/
  maxFrame : Nat
  /-- `CHUNK_SIZE`, read by the stream driver only (R9). -/
  chunkSize : Nat
  /-- The five CRC constants (R10). -/
  crc : CrcParams
deriving DecidableEq, Repr

/-- The CRC constants of this hardware (00_scope.md R10, decision D1; assumption log 1). -/
def CrcParams.datvideo : CrcParams :=
  { poly := 0x1021#16, init := 0xFFFF#16, refin := false, refout := false, xorout := 0x0000#16 }

/-- The configuration of this hardware (00_scope.md R7 to R10; assumption log 1, 2). -/
def Config.datvideo : Config :=
  { delim := 0x7E#8, esc := 0x7D#8, maxFrame := 1048576, chunkSize := 188, crc := CrcParams.datvideo }

/-- Well-formedness of a configuration (00_scope.md R11, 92_eei_decisions.md D14): an ill-formed one is
refused. -/
def Config.wf (cfg : Config) : Bool :=
  cfg.delim != cfg.esc && decide (2 ≤ cfg.maxFrame) && decide (1 ≤ cfg.chunkSize)

/-- The further condition of R11 under which the round-trip law covers every chunk that the stream driver
can produce. It is a condition of that law and not of the machine (90_conflicts.md C5). -/
def Config.coversChunks (cfg : Config) : Bool :=
  decide (cfg.chunkSize + 2 ≤ cfg.maxFrame)

end Sys2Proof
end

