-- ==== Sys2Proof/Syntax.lean ====
section
/-! DEFINITION. The instructions: one constructor per row of spec/opcode_table.json. -/

namespace Sys2Proof

/-- The 16 rows of the opcode table. The six wire rows (formats `W` and `W2`, 30_encoding.md R71, R73) are
what the decoder reads from the wire; the ten command tokens (format `K`, R87) drive the three units. -/
inductive Instr where
  /-- `DELIM` (`W`): the delimiter byte arrives on the wire (R71, R82). -/
  | delim
  /-- `ESC` (`W`): the escape byte arrives on the wire (R71, R82). -/
  | esc
  /-- `DATA` (`W`): any other byte arrives on the wire (R71, R82). -/
  | data (b : Byte)
  /-- `ESC DELIM` (`W2`): an escaped delimiter (R73, R157). -/
  | escDelim
  /-- `ESC ESC` (`W2`): an escaped escape byte (R73, R157). -/
  | escEsc
  /-- `ESC other` (`W2`): the illegal symbol (R73, R80, R159). -/
  | escOther (x : Byte)
  /-- `CRC.INIT` (R101). -/
  | crcInit
  /-- `CRC.BYTE d` (R103). -/
  | crcByte (d : Byte)
  /-- `CRC.BIT d` (R102). -/
  | crcBit (d : Bool)
  /-- `CRC.GET` (R104). -/
  | crcGet
  /-- `ENC.SOF` (R131). -/
  | encSof
  /-- `ENC.DATA d` (R132). -/
  | encData (d : Byte)
  /-- `ENC.EOF` (R133). -/
  | encEof
  /-- `DEC.RX d` (R150). -/
  | decRx (d : Byte)
  /-- `DEC.EOS` (R191). -/
  | decEos
  /-- `RESET` (R190). -/
  | reset
deriving DecidableEq, Repr

end Sys2Proof
end

