-- ==== Sys2Proof/Machine/State.lean ====
section
/-! DEFINITION. The state of the core (10_state.md R20): the six architectural items, the outputs of the
step just taken (30_encoding.md R85, R88), and the tokens the environment has yet to present. -/

namespace Sys2Proof.Machine

/-- `enc_state` (R22). -/
inductive EncState where
  | encIdle
  | encBusy
deriving DecidableEq, Repr

/-- `rx_state`, the receive-state tag (R24). -/
inductive RxState where
  | reset
  | inFrame
  | inEscape
deriving DecidableEq, Repr

/-- The four frame-local conditions (60_exceptions.md R220 to R224). -/
inductive Condition where
  | shortFrame
  | longFrame
  | invalidEscape
  | crcMismatch
deriving DecidableEq, Repr

/-- The `event` output of the decoder (R220): six values, of which `chunk` alone carries data (R225). -/
inductive Event where
  | none
  | chunk (payload : List Byte)
  | condition (c : Condition)
deriving DecidableEq, Repr

/-- The outputs of one step (30_encoding.md R85): `crc_out`, present after `CRC.GET` only (assumption log 14); `out_bytes`, the
wire bytes the encoder emitted in this step; `event`, the decoder's event of this step. -/
structure Output where
  crcOut : Option Word16
  outBytes : List Byte
  event : Event
deriving DecidableEq, Repr

/-- A step that outputs nothing: "A step that does not assign it has `event = None`" (R12). -/
def Output.silent : Output := { crcOut := none, outBytes := [], event := .none }

/-- The three units (00_scope.md R2). -/
inductive UnitId where
  | crc
  | enc
  | dec
deriving DecidableEq, Repr

/-- What the environment can present in one step: an input word, or the reset of one unit alone
(43_system_ops.md R190: "Resetting one unit only is allowed"; assumption log 12). -/
inductive Input where
  | word (w : InputWord)
  | resetUnit (u : UnitId)
deriving DecidableEq, Repr

/-- The accumulation buffer's memory: (index, byte) pairs with strictly rising indices. An index that is not
listed has never been written and reads as nothing (assumption log 3). -/
abbrev Memory := List Host.Cell

/-- The state. The first six fields are the six items of R20; `out` holds the outputs of the last step and
`input` the tokens not yet presented, both the model's own (assumption log 5, 6). -/
structure State where
  /-- `crc`, the register of the stand-alone CRC-16 generator (R21). -/
  crc : Word16
  /-- `enc_state` (R22). -/
  encState : EncState
  /-- `enc_crc`, the encoder's private CRC register (R23). -/
  encCrc : Word16
  /-- `rx_state` (R24). -/
  rxState : RxState
  /-- `buf`, the accumulation buffer (R25, R50). -/
  buf : Memory
  /-- `len`, the number of bytes collected since the last `DELIM` (R25, R36). -/
  len : Nat
  /-- The outputs of the step just taken. -/
  out : Output
  /-- The environment's tokens, next first, those of the three units in one order (assumption log 11). -/
  input : List Input
deriving DecidableEq, Repr

/-- Why a step stops with a fault. Neither can arise in a state that satisfies the invariant of
Safety.lean. -/
inductive Fault where
  /-- Raised by `MemRead` at an index of the buffer that no step has written (R25, R35: its contents are
  unspecified). Safe: the spec gives no value there. -/
  | bufferUnwritten (a : Nat)
  /-- Raised by `MemRead` and `MemWrite` at an index that is not below `MAX_FRAME` (R50: the buffer has
  indices `0 .. MAX_FRAME-1`). Safe: there is no such byte. -/
  | bufferOutOfRange (a : Nat)
deriving DecidableEq, Repr

/-- Why a step is refused: the spec says of each (but the first) that the unit refuses it, "no step, no
output, state unchanged". -/
inductive Refusal where
  /-- Raised by `exec` for an instruction with no meaning yet. Safe. No arm uses it. -/
  | notModelled (mnemonic : String)
  /-- Raised by `ENC.SOF` while `enc_state = EncBusy` (41_stuff_encoder.md R137). Safe. -/
  | sofWhileBusy
  /-- Raised by `ENC.DATA` while `enc_state = EncIdle` (R137). Safe. -/
  | dataWhileIdle
  /-- Raised by `ENC.EOF` while `enc_state = EncIdle` (R137). Safe. -/
  | eofWhileIdle
  /-- Raised by a step on a command word with a reserved opcode (30_encoding.md R90). Safe. -/
  | reservedOpcode (op : BitVec 4)
  /-- Raised by a step on two bytes presented as one symbol that do not begin with `ESC` (R73;
  assumption log 10). Safe. -/
  | notASymbol (w : BitVec 16)
  /-- Raised by the configurable machine on an ill-formed configuration (00_scope.md R11). Safe. -/
  | illFormedConfig
deriving DecidableEq, Repr

/-- What the machine finds when it looks for its next token. -/
inductive Fetched where
  /-- No token: no step of any unit (43_system_ops.md R193). -/
  | nothing
  /-- The reset of one unit alone. -/
  | unitReset (u : UnitId) (rest : List Input)
  /-- An instruction. -/
  | instr (i : Instr) (rest : List Input)
  /-- A word that spells no instruction. -/
  | reject (r : Refusal)
deriving DecidableEq, Repr

/-- The state after `RESET` under a configuration (R35), nothing output and no token waiting. The buffer's
contents are unspecified: nothing is listed. -/
def State.initial (cfg : Config) : State :=
  { crc := cfg.crc.init
    encState := .encIdle
    encCrc := cfg.crc.init
    rxState := .reset
    buf := []
    len := 0
    out := Output.silent
    input := [] }

/-- The machine right after reset (R35, R260; assumption log 4). -/
def State.reset : State := State.initial Config.datvideo

end Sys2Proof.Machine
end

