-- ==== Sys2Proof/Machine/Flags.lean ====
section
/-! DEFINITION. The core has no status flags (10_state.md R30). In their place stands the `event` output:
its codes (60_exceptions.md R220) and the report counted from the event trace (R237). -/

namespace Sys2Proof.Machine

/-- The numeric code of an event (R220); no rule of the machine reads it. -/
def Event.code : Event → Nat
  | .none => 0
  | .chunk _ => 1
  | .condition .shortFrame => 2
  | .condition .longFrame => 3
  | .condition .invalidEscape => 4
  | .condition .crcMismatch => 5

/-- Whether an event is something other than `None`. -/
def Event.isSome : Event → Bool
  | .none => false
  | .chunk _ => true
  | .condition _ => true

/-- The payload of a recovered chunk. -/
def Event.payload? : Event → Option (List Byte)
  | .none => Option.none
  | .chunk p => some p
  | .condition _ => Option.none

/-- The event of a step that consumed two wire bytes: the one that is not `None`. Rules R151, R154 and R157
to R159 leave at most one of the two (assumption log 7). -/
def Event.orElse (e1 e2 : Event) : Event :=
  match e2 with
  | .none => e1
  | .chunk p => .chunk p
  | .condition c => .condition c

/-- The structured report (R237): functions of the event trace, not registers. -/
structure Report where
  nValid : Nat
  nShort : Nat
  nLong : Nat
  nInvalidEscape : Nat
  nCrc : Nat
deriving DecidableEq, Repr

/-- The report of an event trace (R237). -/
def reportOf (es : List Event) : Report :=
  { nValid := es.countP (fun e => e.code == 1)
    nShort := es.countP (fun e => e.code == 2)
    nLong := es.countP (fun e => e.code == 3)
    nInvalidEscape := es.countP (fun e => e.code == 4)
    nCrc := es.countP (fun e => e.code == 5) }

/-- The fourth count of a four-count report (R237, 90_conflicts.md C9). -/
def Report.nCorrupt (r : Report) : Nat := r.nInvalidEscape + r.nCrc

end Sys2Proof.Machine
end

