-- ==== Sys2Proof/Machine/Checksum.lean ====
section
/-! DEFINITION. The CRC-16 generator as functions (40_crc16.md): the serial step, the byte step, the final
value, `CRC16`, and the further equal forms of rules R103, R106 and R108. -/

namespace Sys2Proof.Machine

/-- One serial step from register `c` and message bit `x` (R102). -/
def bitStep (p : CrcParams) (c : Word16) (x : Bool) : Word16 :=
  let fb := xor (c.getLsbD 15) x
  (c <<< 1) ^^^ (if fb then p.poly else 0x0000#16)

/-- The bits of a byte in the order in which the generator takes them: bit 7 first (R53, R103). -/
def bitsMsbFirst (d : Byte) : List Bool :=
  [d.getLsbD 7, d.getLsbD 6, d.getLsbD 5, d.getLsbD 4, d.getLsbD 3, d.getLsbD 2, d.getLsbD 1, d.getLsbD 0]

/-- The bits of a message in the order in which the generator takes them (R53). -/
def messageBits (s : List Byte) : List Bool := s.flatMap bitsMsbFirst

/-- The byte as the eight steps take it: reflected when `CRC_REFIN` (R103, R113). -/
def refinByte (p : CrcParams) (d : Byte) : Byte := if p.refin then d.reverse else d

/-- One byte-parallel step (R103): eight serial steps, most significant bit first. -/
def byteStep (p : CrcParams) (c : Word16) (d : Byte) : Word16 :=
  (bitsMsbFirst (refinByte p d)).foldl (bitStep p) c

/-- The finalised checksum of a register value (R104). -/
def crcFinal (p : CrcParams) (c : Word16) : Word16 :=
  (if p.refout then c.reverse else c) ^^^ p.xorout

/-- The register reached from `c` over a byte sequence (the loop of R105). -/
def crcRun (p : CrcParams) (c : Word16) (s : List Byte) : Word16 := s.foldl (byteStep p) c

/-- `CRC16(s)` (R105). -/
def crc16 (p : CrcParams) (s : List Byte) : Word16 := crcFinal p (crcRun p p.init s)

/-! ## Further equal forms, which add no behaviour -/

/-- One of the eight rounds of the software form of R103. -/
def softwareRound (p : CrcParams) (t : Word16) : Word16 :=
  if t.getLsbD 15 then (t <<< 1) ^^^ p.poly else t <<< 1

/-- The software form of R103: the byte is exclusive-ored into the upper half first. -/
def byteStepSoftware (p : CrcParams) (c : Word16) (d : Byte) : Word16 :=
  let t := c ^^^ ((refinByte p d).setWidth 16 <<< 8)
  softwareRound p (softwareRound p (softwareRound p (softwareRound p
    (softwareRound p (softwareRound p (softwareRound p (softwareRound p t)))))))

/-- The nibble form of R108 (a), for `CRC_POLY = 0x1021` with no reflection. -/
def byteStepNibble (c : Word16) (d : Byte) : Word16 :=
  let t : Byte := (c >>> 8).setWidth 8 ^^^ d
  let u : Byte := t ^^^ (t >>> 4)
  let u16 : Word16 := u.setWidth 16
  (c <<< 8) ^^^ (u16 <<< 12) ^^^ (u16 <<< 5) ^^^ u16

/-- The table `T` of R108 (b). -/
def crcTable (p : CrcParams) (i : Byte) : Word16 := byteStep p 0x0000#16 i

/-- The table form of R108 (b). -/
def byteStepTable (p : CrcParams) (c : Word16) (d : Byte) : Word16 :=
  (c <<< 8) ^^^ crcTable p ((c >>> 8).setWidth 8 ^^^ d)

end Sys2Proof.Machine
end

