-- ==== Sys2Proof/Machine/Operands.lean ====
section
/-! DEFINITION. Operand forms: byte order (20_memory.md R52, R57), the reserved bytes, the escape-rule
multiplexer (41_stuff_encoder.md R135) and the frame of a chunk (R130). -/

namespace Sys2Proof.Machine

/-- `hi8(w) = w[15:8]` (R12). -/
def hi8 (w : Word16) : Byte := w.extractLsb' 8 8

/-- `lo8(w) = w[7:0]` (R12). -/
def lo8 (w : Word16) : Byte := w.extractLsb' 0 8

/-- Two bytes, the earlier one more significant (R52). -/
def bigEndian (first second : Byte) : Word16 := first ++ second

/-- A reserved byte: one equal to `DELIM` or `ESC` (the select signal of R135). -/
def reserved (cfg : Config) (b : Byte) : Bool := b == cfg.delim || b == cfg.esc

/-- `Stuffed(b)` (30_encoding.md R72, 41_stuff_encoder.md R135). -/
def stuffed (cfg : Config) (b : Byte) : List Byte :=
  if reserved cfg b then [cfg.esc, b] else [b]

/-- The two checksum bytes in wire order, high byte then low byte (R52). -/
def checksumBytes (c : Word16) : List Byte := [hi8 c, lo8 c]

/-- The unescaped body of the frame of `p`: the payload and its checksum (R70, R76). -/
def frameBody (cfg : Config) (p : List Byte) : List Byte := p ++ checksumBytes (crc16 cfg.crc p)

/-- The refusal of an ill-formed configuration (00_scope.md R11): it is given no meaning. -/
def whenWellFormed {α : Type} (cfg : Config) (o : Host.Outcome α Fault Refusal) :
    Host.Outcome α Fault Refusal :=
  if cfg.wf then o else .refused .illFormedConfig

/-- The right-hand side of R130's equation: the bytes of a frame, field by field (R70). `encodeFrame` is the
operation. -/
def frameBytes (cfg : Config) (p : List Byte) : List Byte :=
  [cfg.delim] ++ p.flatMap (stuffed cfg) ++ stuffed cfg (hi8 (crc16 cfg.crc p))
    ++ stuffed cfg (lo8 (crc16 cfg.crc p)) ++ [cfg.delim]

/-- `encode(p)` (R130): the frame of a chunk. -/
def encodeFrame (cfg : Config) (p : List Byte) : Host.Outcome (List Byte) Fault Refusal :=
  whenWellFormed cfg (.next (frameBytes cfg p))

/-- `payload = buf[0 ..< n-2]` of a closed frame body of `n` bytes (R57, R161). -/
def bodyPayload (body : List Byte) : List Byte := body.take (body.length - 2)

/-- `received_crc`, the last two bytes of a closed frame body of at least two bytes (R57, R161). -/
def bodyChecksum (body : List Byte) : Word16 :=
  bigEndian (body.getD (body.length - 2) 0x00#8) (body.getD (body.length - 1) 0x00#8)

end Sys2Proof.Machine
end

