-- ==== Sys2Proof/Machine/Ops.lean ====
section
/-! DEFINITION. The named operations over the accumulation buffer and the registers: `MemRead`, `MemWrite`
(00_scope.md R12), taking a condition (60_exceptions.md R232), delivering a chunk (R225), and the resets. -/

namespace Sys2Proof.Machine

/-! ## The accumulation buffer's memory -/

/-- The byte written last at index `a`, if any step has written there. -/
def Memory.read : Memory → Nat → Option Byte
  | [], _ => none
  | (k, v) :: m, a => if k = a then some v else Memory.read m a

/-- The memory with byte `v` at index `a`, kept in rising order. -/
def Memory.write : Memory → Nat → Byte → Memory
  | [], a, v => [(a, v)]
  | (k, w) :: m, a, v =>
    if a < k then (a, v) :: (k, w) :: m
    else if a = k then (a, v) :: m
    else (k, w) :: Memory.write m a v

/-- The canonical form: indices strictly rising. An unlisted index reads as nothing, so no entry can equal
what it reads as. -/
def Memory.wf : Memory → Bool
  | [] => true
  | [_] => true
  | (a, _) :: (b, v) :: m => decide (a < b) && Memory.wf ((b, v) :: m)

/-- One byte of the buffer (R50): there is none at or above `MAX_FRAME`, and none to read where no step has
written (assumption log 3). -/
def bufRead (cfg : Config) (m : Memory) (a : Nat) : Except Fault Byte :=
  if a < cfg.maxFrame then
    match m.read a with
    | some b => .ok b
    | none => .error (.bufferUnwritten a)
  else .error (.bufferOutOfRange a)

/-- `MemRead(a, n)`: the bytes `buf[a ..< a+n]` (R12). -/
def memRead (cfg : Config) (m : Memory) : Nat → Nat → Except Fault (List Byte)
  | _, 0 => .ok []
  | a, n + 1 =>
    match bufRead cfg m a with
    | .error f => .error f
    | .ok b =>
      match memRead cfg m (a + 1) n with
      | .error f => .error f
      | .ok bs => .ok (b :: bs)

/-- `MemWrite(a, 1, v)` (R12). -/
def memWrite (cfg : Config) (m : Memory) (a : Nat) (v : Byte) : Except Fault Memory :=
  if a < cfg.maxFrame then .ok (m.write a v) else .error (.bufferOutOfRange a)

/-! ## Steps -/

/-- The state at the start of a step: no output yet (R12, "Steps"). -/
def State.quiet (s : State) : State := { s with out := Output.silent }

/-- `emit bs` (R12), as the only output of a step. -/
def State.emitting (s : State) (bs : List Byte) : State :=
  { s with out := { Output.silent with outBytes := bs } }

/-- Sequencing of two steps: a stop of the first is a stop of both. -/
def andThen (o : Host.Outcome State Fault Refusal) (k : State → Host.Outcome State Fault Refusal) :
    Host.Outcome State Fault Refusal :=
  match o with
  | .next s => k s
  | .fault f => .fault f
  | .refused r => .refused r

/-! ## Taking a condition

This is the core's one exception entry (R232). It saves nothing and goes to no handler, and there is no
return: recovery is the ordinary behaviour of state `Reset` (R234). -/

/-- `raise C` (R232): the event, the buffer cleared, and the receive state `Reset`. Clearing is `len <- 0`:
the bytes stay in `buf` and no rule reads them (R37; assumption log 13). -/
def raise (c : Condition) (s : State) : State :=
  { s with out := { Output.silent with event := .condition c }, len := 0, rxState := .reset }

/-- The delivery of a recovered chunk (R162, R225) with the clearing that follows every close (R164). -/
def deliver (p : List Byte) (s : State) : State :=
  { s with out := { Output.silent with event := .chunk p }, len := 0, rxState := .reset }

/-! ## Reset of each unit (43_system_ops.md R190) -/

/-- The stand-alone CRC generator's register. -/
def resetCrc (cfg : Config) (s : State) : State := { s with crc := cfg.crc.init }

/-- The encoder's registers. -/
def resetEnc (cfg : Config) (s : State) : State :=
  { s with encState := .encIdle, encCrc := cfg.crc.init }

/-- The decoder's registers; the buffer's contents are not cleared. -/
def resetDec (s : State) : State := { s with rxState := .reset, len := 0 }

/-- The reset of one unit alone: no output, and no other unit's registers change. -/
def resetUnitWith (cfg : Config) (u : UnitId) (s : State) : State :=
  match u with
  | .crc => (resetCrc cfg s).quiet
  | .enc => (resetEnc cfg s).quiet
  | .dec => (resetDec s).quiet

/-- The reset of one unit on this hardware. -/
def resetUnit (u : UnitId) (s : State) : State := resetUnitWith Config.datvideo u s

end Sys2Proof.Machine
end

