-- ==== Sys2Proof/Machine/CrcUnit.lean ====
section
/-! DEFINITION. The operations of the stand-alone CRC-16 generator (40_crc16.md section 2). Each is given for
any configuration and then for this hardware. -/

namespace Sys2Proof.Machine

/-- `CRC.INIT` (R101). -/
def crcInitWith (cfg : Config) (s : State) : Host.Outcome State Fault Refusal :=
  .next { s.quiet with crc := cfg.crc.init }

/-- `CRC.BIT d` (R102). -/
def crcBitWith (cfg : Config) (d : Bool) (s : State) : Host.Outcome State Fault Refusal :=
  .next { s.quiet with crc := bitStep cfg.crc s.crc d }

/-- `CRC.BYTE d` (R103). -/
def crcByteWith (cfg : Config) (d : Byte) (s : State) : Host.Outcome State Fault Refusal :=
  .next { s.quiet with crc := byteStep cfg.crc s.crc d }

/-- `CRC.GET` (R104): the finalised checksum on `crc_out`, the register unchanged. -/
def crcGetWith (cfg : Config) (s : State) : Host.Outcome State Fault Refusal :=
  .next { s with out := { Output.silent with crcOut := some (crcFinal cfg.crc s.crc) } }

/-- `CRC.INIT` on this hardware. -/
def execCrcInit (s : State) : Host.Outcome State Fault Refusal := crcInitWith Config.datvideo s

/-- `CRC.BIT d` on this hardware. -/
def execCrcBit (d : Bool) (s : State) : Host.Outcome State Fault Refusal := crcBitWith Config.datvideo d s

/-- `CRC.BYTE d` on this hardware. -/
def execCrcByte (d : Byte) (s : State) : Host.Outcome State Fault Refusal := crcByteWith Config.datvideo d s

/-- `CRC.GET` on this hardware. -/
def execCrcGet (s : State) : Host.Outcome State Fault Refusal := crcGetWith Config.datvideo s

end Sys2Proof.Machine
end

