-- ==== Sys2Proof/Machine/EncUnit.lean ====
section
/-! DEFINITION. The operations of the byte-stuffing encoder (41_stuff_encoder.md section 3), with the token
protocol's refusals (R137). -/

namespace Sys2Proof.Machine

/-- `ENC.SOF` (R131), refused in `EncBusy` (R137). -/
def encSofWith (cfg : Config) (s : State) : Host.Outcome State Fault Refusal :=
  match s.encState with
  | .encIdle => .next { s.emitting [cfg.delim] with encCrc := cfg.crc.init, encState := .encBusy }
  | .encBusy => .refused .sofWhileBusy

/-- `ENC.DATA d` (R132), refused in `EncIdle` (R137). The CRC register is advanced by `d` itself, never by an
inserted `ESC`. -/
def encDataWith (cfg : Config) (d : Byte) (s : State) : Host.Outcome State Fault Refusal :=
  match s.encState with
  | .encIdle => .refused .dataWhileIdle
  | .encBusy => .next { s.emitting (stuffed cfg d) with encCrc := byteStep cfg.crc s.encCrc d }

/-- `ENC.EOF` (R133), refused in `EncIdle` (R137). `enc_crc` is left as it is. -/
def encEofWith (cfg : Config) (s : State) : Host.Outcome State Fault Refusal :=
  match s.encState with
  | .encIdle => .refused .eofWhileIdle
  | .encBusy =>
    let c := crcFinal cfg.crc s.encCrc
    .next { s.emitting (stuffed cfg (hi8 c) ++ stuffed cfg (lo8 c) ++ [cfg.delim]) with encState := .encIdle }

/-- `ENC.SOF` on this hardware. -/
def execEncSof (s : State) : Host.Outcome State Fault Refusal := encSofWith Config.datvideo s

/-- `ENC.DATA d` on this hardware. -/
def execEncData (d : Byte) (s : State) : Host.Outcome State Fault Refusal := encDataWith Config.datvideo d s

/-- `ENC.EOF` on this hardware. -/
def execEncEof (s : State) : Host.Outcome State Fault Refusal := encEofWith Config.datvideo s

end Sys2Proof.Machine
end

