-- ==== Sys2Proof/Machine/SystemOps.lean ====
section
/-! DEFINITION. The system operations (43_system_ops.md section 1). -/

namespace Sys2Proof.Machine

/-- `DEC.EOS` (R191): a frame in progress is abandoned with no event. -/
def decEosWith (_cfg : Config) (s : State) : Host.Outcome State Fault Refusal :=
  .next { s.quiet with len := 0, rxState := .reset }

/-- `RESET` (R190): every unit, no output. -/
def resetWith (cfg : Config) (s : State) : Host.Outcome State Fault Refusal :=
  .next (resetDec (resetEnc cfg (resetCrc cfg s.quiet)))

/-- `DEC.EOS` on this hardware. -/
def execDecEos (s : State) : Host.Outcome State Fault Refusal := decEosWith Config.datvideo s

/-- `RESET` on this hardware. -/
def execReset (s : State) : Host.Outcome State Fault Refusal := resetWith Config.datvideo s

end Sys2Proof.Machine
end

