-- ==== Sys2Proof/Machine/DecUnit.lean ====
section
/-! DEFINITION. The HDLC-framing decoder's data operation `DEC.RX` (42_frame_decoder.md): one definition per
outcome of rules R151 to R164, and the dispatch of R150. -/

namespace Sys2Proof.Machine

/-- R151: hunt. The byte is discarded. -/
def rxHunt (s : State) : Host.Outcome State Fault Refusal := .next s.quiet

/-- R152: open. -/
def rxOpen (s : State) : Host.Outcome State Fault Refusal :=
  .next { s.quiet with len := 0, rxState := .inFrame }

/-- R154: the `ESC` byte; the buffer is unchanged. -/
def rxEscape (s : State) : Host.Outcome State Fault Refusal :=
  .next { s.quiet with rxState := .inEscape }

/-- The index that an append stores to: `len` (R156, R157). -/
def appendIndex (s : State) : Nat := s.len

/-- R156 and R157: append `d`, and be in `InFrame`. -/
def rxAppend (cfg : Config) (d : Byte) (s : State) : Host.Outcome State Fault Refusal :=
  match memWrite cfg s.buf (appendIndex s) d with
  | .error f => .fault f
  | .ok m => .next { s.quiet with buf := m, len := s.len + 1, rxState := .inFrame }

/-- Append `d` if the buffer has room for one more byte, and raise `LongFrame` otherwise: the size test of
R155 and R156, and of R157 and R158. -/
def rxAppendOrLong (cfg : Config) (d : Byte) (s : State) : Host.Outcome State Fault Refusal :=
  if s.len + 1 > cfg.maxFrame then .next (raise .longFrame s) else rxAppend cfg d s

/-- R153 with R160 to R164: the close. -/
def rxClose (cfg : Config) (s : State) : Host.Outcome State Fault Refusal :=
  if s.len < 2 then .next (raise .shortFrame s)
  else
    match memRead cfg s.buf 0 s.len with
    | .error f => .fault f
    | .ok body =>
      if bodyChecksum body = crc16 cfg.crc (bodyPayload body) then .next (deliver (bodyPayload body) s)
      else .next (raise .crcMismatch s)

/-- `DEC.RX d`: the dispatch of R150, the tests in its order. -/
def decRxWith (cfg : Config) (d : Byte) (s : State) : Host.Outcome State Fault Refusal :=
  match s.rxState with
  | .reset => if d = cfg.delim then rxOpen s else rxHunt s
  | .inFrame =>
    if d = cfg.delim then rxClose cfg s
    else if d = cfg.esc then rxEscape s
    else rxAppendOrLong cfg d s
  | .inEscape =>
    if d = cfg.delim ∨ d = cfg.esc then rxAppendOrLong cfg d s
    else .next (raise .invalidEscape s)

/-- `DEC.RX d` on this hardware. -/
def execDecRx (d : Byte) (s : State) : Host.Outcome State Fault Refusal := decRxWith Config.datvideo d s

end Sys2Proof.Machine
end

