-- ==== Sys2Proof/Machine/WireSymbols.lean ====
section
/-! DEFINITION. The wire rows of the opcode table: the byte classes `DELIM`, `ESC`, `DATA` (30_encoding.md
R71), whose effect by receive state is R166, and the two-byte symbols (R73), which are the same bytes
grouped. -/

namespace Sys2Proof.Machine

/-- A two-byte symbol: `ESC`, then `x`, each one `DEC.RX` step (30_encoding.md section 4: "The `W2` rows
describe the same bytes as the `W` rows, grouped as symbols"). The event is the one of the two that is not
`None` (assumption log 7). -/
def rxSymbolWith (cfg : Config) (x : Byte) (s : State) : Host.Outcome State Fault Refusal :=
  andThen (decRxWith cfg cfg.esc s) fun t =>
    andThen (decRxWith cfg x t) fun u =>
      .next { u with out := { u.out with event := Event.orElse t.out.event u.out.event } }

/-- `DELIM` (R82, R166). -/
def delimWith (cfg : Config) (s : State) : Host.Outcome State Fault Refusal := decRxWith cfg cfg.delim s

/-- `ESC` (R82, R166). -/
def escWith (cfg : Config) (s : State) : Host.Outcome State Fault Refusal := decRxWith cfg cfg.esc s

/-- `DATA` (R82, R166). -/
def dataWith (cfg : Config) (b : Byte) (s : State) : Host.Outcome State Fault Refusal := decRxWith cfg b s

/-- `ESC DELIM` (R157, R158). -/
def escDelimWith (cfg : Config) (s : State) : Host.Outcome State Fault Refusal :=
  rxSymbolWith cfg cfg.delim s

/-- `ESC ESC` (R157, R158). -/
def escEscWith (cfg : Config) (s : State) : Host.Outcome State Fault Refusal := rxSymbolWith cfg cfg.esc s

/-- `ESC other` (R159). -/
def escOtherWith (cfg : Config) (x : Byte) (s : State) : Host.Outcome State Fault Refusal :=
  rxSymbolWith cfg x s

/-- `DELIM` on this hardware. -/
def execDelim (s : State) : Host.Outcome State Fault Refusal := delimWith Config.datvideo s

/-- `ESC` on this hardware. -/
def execEsc (s : State) : Host.Outcome State Fault Refusal := escWith Config.datvideo s

/-- `DATA` on this hardware. -/
def execData (b : Byte) (s : State) : Host.Outcome State Fault Refusal := dataWith Config.datvideo b s

/-- `ESC DELIM` on this hardware. -/
def execEscDelim (s : State) : Host.Outcome State Fault Refusal := escDelimWith Config.datvideo s

/-- `ESC ESC` on this hardware. -/
def execEscEsc (s : State) : Host.Outcome State Fault Refusal := escEscWith Config.datvideo s

/-- `ESC other` on this hardware. -/
def execEscOther (x : Byte) (s : State) : Host.Outcome State Fault Refusal :=
  escOtherWith Config.datvideo x s

end Sys2Proof.Machine
end

