-- ==== Sys2Proof/Machine/Dispatch.lean ====
section
/-! DEFINITION. What each instruction does: one arm per constructor of Instr. -/

namespace Sys2Proof.Machine

def exec (i : Instr) (s : State) : Host.Outcome State Fault Refusal :=
  match i with
  -- the wire rows (formats W and W2)
  | .delim => Sys2Proof.Machine.execDelim s
  | .esc => Sys2Proof.Machine.execEsc s
  | .data b => Sys2Proof.Machine.execData b s
  | .escDelim => Sys2Proof.Machine.execEscDelim s
  | .escEsc => Sys2Proof.Machine.execEscEsc s
  | .escOther x => Sys2Proof.Machine.execEscOther x s
  -- the CRC-16 generator
  | .crcInit => Sys2Proof.Machine.execCrcInit s
  | .crcByte d => Sys2Proof.Machine.execCrcByte d s
  | .crcBit d => Sys2Proof.Machine.execCrcBit d s
  | .crcGet => Sys2Proof.Machine.execCrcGet s
  -- the encoder
  | .encSof => Sys2Proof.Machine.execEncSof s
  | .encData d => Sys2Proof.Machine.execEncData d s
  | .encEof => Sys2Proof.Machine.execEncEof s
  -- the decoder
  | .decRx d => Sys2Proof.Machine.execDecRx d s
  | .decEos => Sys2Proof.Machine.execDecEos s
  -- all units
  | .reset => Sys2Proof.Machine.execReset s

end Sys2Proof.Machine
end

