-- ==== Sys2Proof/WellFormed.lean ====
section
/-! DEFINITION. Which instructions are well formed: those that some word of the opcode table spells. -/

namespace Sys2Proof

/-- `DATA` is tried last and carries none of the two reserved values (30_encoding.md R71); likewise the
second byte of `ESC other` (R73). Every other operand may take every value of its width. -/
def Instr.wf (cfg : Config) : Instr → Bool
  | .data b => b != cfg.delim && b != cfg.esc
  | .escOther x => x != cfg.delim && x != cfg.esc
  | .delim => true
  | .esc => true
  | .escDelim => true
  | .escEsc => true
  | .crcInit => true
  | .crcByte _ => true
  | .crcBit _ => true
  | .crcGet => true
  | .encSof => true
  | .encData _ => true
  | .encEof => true
  | .decRx _ => true
  | .decEos => true
  | .reset => true

end Sys2Proof
end

