-- ==== Sys2Proof/Decode.lean ====
section
/-! DEFINITION. Decoding of input words to instructions, total and rejecting by name, the encoder written
from the same tables (30_encoding.md R71, R73, R86, R87, R90), the opcode table as data, and the
left-to-right parse of a frame body into wire symbols (R73). -/

namespace Sys2Proof

/-- Why an input word spells no instruction. -/
inductive DecodeReject where
  /-- A command word whose `op` is one of the reserved values `0x7`, `0xA` to `0xE` (R90). -/
  | reservedOpcode (op : BitVec 4)
  /-- Two bytes presented as one `W2` symbol whose first byte is not `ESC` (R73: only `ESC` announces a
  two-byte symbol; assumption log 10). -/
  | notASymbol (w : BitVec 16)
deriving DecidableEq, Repr

/-! ## Fields -/

/-- `k[11:8]`, the opcode of a command word (R86). -/
def commandOp (k : BitVec 12) : BitVec 4 := k.extractLsb' 8 4

/-- `k[7:0]`, the argument of a command word (R86). -/
def commandArg (k : BitVec 12) : Byte := k.extractLsb' 0 8

/-- The command word `op`, `arg` (R86). -/
def commandWord (op : BitVec 4) (arg : Byte) : BitVec 12 := op ++ arg

/-- The byte of a `W2` symbol that is sent first: bits 15:8. -/
def symbolFirst (w : BitVec 16) : Byte := w.extractLsb' 8 8

/-- The byte of a `W2` symbol that is sent second: bits 7:0. -/
def symbolSecond (w : BitVec 16) : Byte := w.extractLsb' 0 8

/-- The two wire bytes of a `W2` symbol as one 16-bit word. -/
def symbolWord (first second : Byte) : BitVec 16 := first ++ second

/-! ## Decoding -/

/-- The class of a wire byte: `DELIM`, then `ESC`, and `DATA` otherwise (R71). -/
def decodeWire (cfg : Config) (b : Byte) : Instr :=
  if b = cfg.delim then .delim else if b = cfg.esc then .esc else .data b

/-- The symbol that `ESC` and the byte `x` make (R73, R80; row order of R71's second table). -/
def decodeEscaped (cfg : Config) (x : Byte) : Instr :=
  if x = cfg.delim then .escDelim else if x = cfg.esc then .escEsc else .escOther x

/-- The token that a command word spells (R87), or the reserved opcode it holds (R90). The bits of `arg`
that a token does not use are ignored (R86). -/
def decodeCommand (k : BitVec 12) : Except DecodeReject Instr :=
  match (commandOp k).toNat with
  | 0x0 => .ok .crcInit
  | 0x1 => .ok (.crcByte (commandArg k))
  | 0x2 => .ok (.crcBit ((commandArg k).getLsbD 0))
  | 0x3 => .ok .crcGet
  | 0x4 => .ok .encSof
  | 0x5 => .ok (.encData (commandArg k))
  | 0x6 => .ok .encEof
  | 0x8 => .ok (.decRx (commandArg k))
  | 0x9 => .ok .decEos
  | 0xF => .ok .reset
  | _ => .error (.reservedOpcode (commandOp k))

/-- The instruction an input word spells under a configuration. -/
def decodeWith (cfg : Config) : InputWord → Except DecodeReject Instr
  | .wire b => .ok (decodeWire cfg b)
  | .symbol w =>
    if symbolFirst w = cfg.esc then .ok (decodeEscaped cfg (symbolSecond w))
    else .error (.notASymbol w)
  | .command k => decodeCommand k

/-- Decoding on this hardware. -/
def decode (w : InputWord) : Except DecodeReject Instr := decodeWith Config.datvideo w

/-! ## Encoding -/

/-- The canonical word of an instruction: an unused `arg` is zero (R86, R87). -/
def encodeWith (cfg : Config) : Instr → InputWord
  | .delim => .wire cfg.delim
  | .esc => .wire cfg.esc
  | .data b => .wire b
  | .escDelim => .symbol (symbolWord cfg.esc cfg.delim)
  | .escEsc => .symbol (symbolWord cfg.esc cfg.esc)
  | .escOther x => .symbol (symbolWord cfg.esc x)
  | .crcInit => .command (commandWord 0x0#4 0x00#8)
  | .crcByte d => .command (commandWord 0x1#4 d)
  | .crcBit d => .command (commandWord 0x2#4 (if d then 0x01#8 else 0x00#8))
  | .crcGet => .command (commandWord 0x3#4 0x00#8)
  | .encSof => .command (commandWord 0x4#4 0x00#8)
  | .encData d => .command (commandWord 0x5#4 d)
  | .encEof => .command (commandWord 0x6#4 0x00#8)
  | .decRx d => .command (commandWord 0x8#4 d)
  | .decEos => .command (commandWord 0x9#4 0x00#8)
  | .reset => .command (commandWord 0xF#4 0x00#8)

/-- Encoding on this hardware. -/
def encode (i : Instr) : InputWord := encodeWith Config.datvideo i

/-! ## The opcode table as data -/

/-- One row of spec/opcode_table.json: `pattern` is its "match". -/
structure OpcodeRow where
  mnemonic : String
  format : Format
  bits : Nat
  pattern : Nat
  mask : Nat
deriving DecidableEq, Repr

/-- The row of an instruction. -/
def opcodeRow : Instr → OpcodeRow
  | .delim => ⟨"DELIM", .W, 8, 0x7E, 0xFF⟩
  | .esc => ⟨"ESC", .W, 8, 0x7D, 0xFF⟩
  | .data _ => ⟨"DATA", .W, 8, 0x00, 0x00⟩
  | .escDelim => ⟨"ESC_DELIM", .W2, 16, 0x7D7E, 0xFFFF⟩
  | .escEsc => ⟨"ESC_ESC", .W2, 16, 0x7D7D, 0xFFFF⟩
  | .escOther _ => ⟨"ESC_other", .W2, 16, 0x7D00, 0xFF00⟩
  | .crcInit => ⟨"CRC.INIT", .K, 12, 0x000, 0xF00⟩
  | .crcByte _ => ⟨"CRC.BYTE", .K, 12, 0x100, 0xF00⟩
  | .crcBit _ => ⟨"CRC.BIT", .K, 12, 0x200, 0xF00⟩
  | .crcGet => ⟨"CRC.GET", .K, 12, 0x300, 0xF00⟩
  | .encSof => ⟨"ENC.SOF", .K, 12, 0x400, 0xF00⟩
  | .encData _ => ⟨"ENC.DATA", .K, 12, 0x500, 0xF00⟩
  | .encEof => ⟨"ENC.EOF", .K, 12, 0x600, 0xF00⟩
  | .decRx _ => ⟨"DEC.RX", .K, 12, 0x800, 0xF00⟩
  | .decEos => ⟨"DEC.EOS", .K, 12, 0x900, 0xF00⟩
  | .reset => ⟨"RESET", .K, 12, 0xF00, 0xF00⟩

/-- The table in its own order, which is the order of decode priority (R87 and 30_encoding.md section 4). -/
def opcodeTable : List OpcodeRow :=
  [.delim, .esc, .data 0, .escDelim, .escEsc, .escOther 0, .crcInit, .crcByte 0, .crcBit false, .crcGet,
    .encSof, .encData 0, .encEof, .decRx 0, .decEos, .reset].map opcodeRow

/-- The format of an input word. -/
def InputWord.format : InputWord → Format
  | .wire _ => .W
  | .symbol _ => .W2
  | .command _ => .K

/-- The bits of an input word, numbered as the opcode table numbers them. -/
def InputWord.bits : InputWord → Nat
  | .wire b => b.toNat
  | .symbol w => w.toNat
  | .command k => k.toNat

/-- Whether a word matches a row: same format, and the masked bits are the row's pattern. -/
def OpcodeRow.matchesWord (r : OpcodeRow) (w : InputWord) : Bool :=
  decide (w.format = r.format) && (w.bits &&& r.mask) == r.pattern

/-- The first row of the table that a word matches: the table's own reading of the word. -/
def firstRow (w : InputWord) : Option OpcodeRow :=
  opcodeTable.find? (fun r => r.matchesWord w)

/-! ## Wire symbols -/

/-- The byte a wire symbol contributes to the accumulation buffer (R73): a literal its value, a legal escape
its second byte; a frame boundary and an illegal symbol contribute nothing. -/
def Instr.contributes (cfg : Config) : Instr → Option Byte
  | .data b => some b
  | .escDelim => some cfg.delim
  | .escEsc => some cfg.esc
  | _ => none

/-- A byte sequence parsed left to right into wire symbols (R73): `ESC` takes the byte after it, every other
byte stands alone. A lone `ESC` at the end is an incomplete symbol: no parse. -/
def parseSymbols (cfg : Config) : List Byte → Option (List Instr)
  | [] => some []
  | [b] => if b = cfg.esc then none else some [decodeWire cfg b]
  | b :: x :: rest =>
    if b = cfg.esc then (parseSymbols cfg rest).map (decodeEscaped cfg x :: ·)
    else (parseSymbols cfg (x :: rest)).map (decodeWire cfg b :: ·)

/-! ## The host's words -/

/-- A row's word, numbered as the table numbers it, as the input word that the environment presents:
8 bits are a wire byte, up to 16 bits are a command word when bits 15:12 are zero and a `W2` symbol
otherwise (its prefix `ESC` has bits 15:12 not zero). Assumption log 9. -/
def inputWordOf (nbits w : Nat) : Option InputWord :=
  if nbits = 0 then none
  else if nbits ≤ 8 then
    if w < 2 ^ 8 then some (.wire (BitVec.ofNat 8 w)) else none
  else if nbits ≤ 16 then
    if w < 2 ^ 12 then some (.command (BitVec.ofNat 12 w))
    else if w < 2 ^ 16 then some (.symbol (BitVec.ofNat 16 w))
    else none
  else none

/-- The instruction the decoder reads from an opcode-table word. -/
def decodeTableWord (nbits w : Nat) : Option Instr :=
  match inputWordOf nbits w with
  | none => none
  | some x =>
    match decode x with
    | .ok i => some i
    | .error _ => none

end Sys2Proof
end

