-- ==== Sys2Proof/Machine/Fetch.lean ====
section
/-! DEFINITION. Taking the next token from the environment (00_scope.md R6, 30_encoding.md R85). The core has
no program counter and fetches from no memory (10_state.md R26): its tokens come one at a time from the
environment, and `input` lists those not yet presented (assumption log 6). -/

namespace Sys2Proof.Machine

/-- The refusal of a word that spells no instruction (R90, R73). -/
def refusalOf : DecodeReject → Refusal
  | .reservedOpcode op => .reservedOpcode op
  | .notASymbol w => .notASymbol w

/-- The next token, decoded under a configuration. -/
def fetchWith (cfg : Config) (s : State) : Fetched :=
  match s.input with
  | [] => .nothing
  | .resetUnit u :: rest => .unitReset u rest
  | .word w :: rest =>
    match decodeWith cfg w with
    | .ok i => .instr i rest
    | .error r => .reject (refusalOf r)

/-- The next token on this hardware. -/
def fetch (s : State) : Fetched := fetchWith Config.datvideo s

/-- The state with the tokens `rest` still to come. -/
def State.withInput (s : State) (rest : List Input) : State := { s with input := rest }

/-- No token, no step (43_system_ops.md R193): the state persists and nothing is output (assumption
log 8). -/
def State.idle (s : State) : State := s.quiet

/-- The state with an opcode-table word as the next token; a number that is no input word adds nothing. -/
def presentWord (s : State) (nbits w : Nat) : State :=
  match inputWordOf nbits w with
  | some x => s.withInput (.word x :: s.input)
  | none => s

end Sys2Proof.Machine
end

