-- ==== Sys2Proof/Machine/Step.lean ====
section
/-! DEFINITION. One step of the core: the atomic processing of one input token by one unit (00_scope.md R12,
"Steps"). -/

namespace Sys2Proof.Machine

/-- One step. -/
def step (s : State) : Host.Outcome State Fault Refusal :=
  match fetch s with
  | .nothing => .next s.idle
  | .unitReset u rest => .next (resetUnit u (s.withInput rest))
  | .instr i rest => exec i (s.withInput rest)
  | .reject r => .refused r

/-- The state with an opcode-table word presented as the next token (assumption log 6). -/
def State.withFetchWord (s : State) (nbits w : Nat) : State := presentWord s nbits w

end Sys2Proof.Machine
end

