-- ==== Sys2Proof/Machine/Configured.lean ====
section
/-! DEFINITION. The same core under any configuration: the parameters are configuration fields (00_scope.md
R7, R8, R10), an ill-formed configuration is refused (R11), and this hardware is the one at
`Config.datvideo`. -/

namespace Sys2Proof.Machine

/-- What an instruction does under a configuration. -/
def execWith (cfg : Config) (i : Instr) (s : State) : Host.Outcome State Fault Refusal :=
  if cfg.wf then
    match i with
    | .delim => delimWith cfg s
    | .esc => escWith cfg s
    | .data b => dataWith cfg b s
    | .escDelim => escDelimWith cfg s
    | .escEsc => escEscWith cfg s
    | .escOther x => escOtherWith cfg x s
    | .crcInit => crcInitWith cfg s
    | .crcByte d => crcByteWith cfg d s
    | .crcBit d => crcBitWith cfg d s
    | .crcGet => crcGetWith cfg s
    | .encSof => encSofWith cfg s
    | .encData d => encDataWith cfg d s
    | .encEof => encEofWith cfg s
    | .decRx d => decRxWith cfg d s
    | .decEos => decEosWith cfg s
    | .reset => resetWith cfg s
  else .refused .illFormedConfig

/-- One step under a configuration. -/
def stepWith (cfg : Config) (s : State) : Host.Outcome State Fault Refusal :=
  if cfg.wf then
    match fetchWith cfg s with
    | .nothing => .next s.idle
    | .unitReset u rest => .next (resetUnitWith cfg u (s.withInput rest))
    | .instr i rest => execWith cfg i (s.withInput rest)
    | .reject r => .refused r
  else .refused .illFormedConfig

end Sys2Proof.Machine
end

