-- ==== Sys2Proof/Machine/Reference.lean ====
section
/-! DEFINITION. The decoder as the one function over a byte list that 42_frame_decoder.md R166 gives ("which a
model can take as the definition"). The machine works on the array `buf` and the counter `len` (R25); this
function is the clear definition it is held to. -/

namespace Sys2Proof.Machine

/-- The accumulation buffer as a list, `buf[0 ..< len]` (R25). -/
def bufContents (cfg : Config) (s : State) : Except Fault (List Byte) := memRead cfg s.buf 0 s.len

/-- What the decoder holds between two steps (44_codec_laws.md R202): the receive state and the list of
collected bytes. -/
abbrev RxPair := RxState × List Byte

/-- The close of R166's function. -/
def rxTableClose (cfg : Config) (buf : List Byte) : Event :=
  if buf.length < 2 then .condition .shortFrame
  else if bodyChecksum buf = crc16 cfg.crc (bodyPayload buf) then .chunk (bodyPayload buf)
  else .condition .crcMismatch

/-- `step(state, buf, d)` of R166. -/
def rxTable (cfg : Config) : RxPair → Byte → RxPair × Event
  | (.reset, _), d => if d = cfg.delim then ((.inFrame, []), .none) else ((.reset, []), .none)
  | (.inFrame, buf), d =>
    if d = cfg.delim then ((.reset, []), rxTableClose cfg buf)
    else if d = cfg.esc then ((.inEscape, buf), .none)
    else if buf.length + 1 > cfg.maxFrame then ((.reset, []), .condition .longFrame)
    else ((.inFrame, buf ++ [d]), .none)
  | (.inEscape, buf), d =>
    if d = cfg.delim ∨ d = cfg.esc then
      if buf.length + 1 > cfg.maxFrame then ((.reset, []), .condition .longFrame)
      else ((.inFrame, buf ++ [d]), .none)
    else ((.reset, []), .condition .invalidEscape)

/-- One step of R202's left fold: the decoder's pair, and the events so far in order. -/
def rxTableStep (cfg : Config) (x : RxPair × List Event) (d : Byte) : RxPair × List Event :=
  ((rxTable cfg x.1 d).1, x.2 ++ [(rxTable cfg x.1 d).2])

/-- The private register of the streaming check (R169), advanced by every appended byte; not state. -/
def streamingCheck (cfg : Config) (body : List Byte) : Bool := crcRun cfg.crc cfg.crc.init body == 0x0000#16

end Sys2Proof.Machine
end

