-- ==== Sys2Proof/Machine/Streams.lean ====
section
/-! DEFINITION. Runs of tokens and their output traces; the pseudo-instructions (30_encoding.md R91); the
environment's drivers as functions (43_system_ops.md R196 to R198); the report of a run (60_exceptions.md
R237). The drivers are outside the core (00_scope.md R5) and give it no behaviour. -/

namespace Sys2Proof.Machine

/-! ## Runs -/

/-- One step of a run: the token and what the step output. -/
structure TraceEntry where
  instr : Instr
  out : Output
deriving DecidableEq, Repr

/-- What a run of tokens ends in: the last state and the trace of its steps, or the first stop. -/
abbrev RunResult := Host.Outcome (State × List TraceEntry) Fault Refusal

/-- A token program run from a state, the tokens strictly one after another (20_memory.md R58). A run that
contains a refused token is refused (41_stuff_encoder.md R137). -/
def runWith (ex : Instr → State → Host.Outcome State Fault Refusal) : List Instr → State → RunResult
  | [], s => .next (s, [])
  | i :: is, s =>
    match ex i s with
    | .next t =>
      match runWith ex is t with
      | .next (u, tr) => .next (u, ⟨i, t.out⟩ :: tr)
      | .fault f => .fault f
      | .refused r => .refused r
    | .fault f => .fault f
    | .refused r => .refused r

/-- A token program on this hardware. -/
def runTokens (is : List Instr) (s : State) : RunResult := runWith exec is s

/-- The wire bytes of a trace, in order (20_memory.md R59). -/
def wireBytes (tr : List TraceEntry) : List Byte := tr.flatMap (fun e => e.out.outBytes)

/-- The events other than `None` of a trace, in order (R59, R198). -/
def eventsOf (tr : List TraceEntry) : List Event := (tr.map (fun e => e.out.event)).filter Event.isSome

/-- The payloads of the `Chunk` events, in order (R198). -/
def chunksIn (es : List Event) : List (List Byte) := es.filterMap Event.payload?

/-- The values of `crc_out`, in order. -/
def crcOuts (tr : List TraceEntry) : List Word16 := tr.filterMap (fun e => e.out.crcOut)

/-- The part of a trace after its last `RESET` (R237: "since the last `RESET`"). The `RESET` token alone begins
it anew: a trace has no entry for the reset of `DEC` alone, whose effect on the report the spec leaves open
(assumption log 16). -/
def sinceReset (tr : List TraceEntry) : List TraceEntry :=
  tr.foldl (fun acc e => if e.instr = .reset then [] else acc ++ [e]) []

/-- The structured report of a run (R237). -/
def reportOfTrace (tr : List TraceEntry) : Report := reportOf (eventsOf (sinceReset tr))

/-! ## Units -/

/-- Whether a token is one of a unit's own: `RESET` is every unit's (30_encoding.md R85, R87). -/
def concerns (u : UnitId) : Instr → Bool
  | .delim => u == .dec
  | .esc => u == .dec
  | .data _ => u == .dec
  | .escDelim => u == .dec
  | .escEsc => u == .dec
  | .escOther _ => u == .dec
  | .crcInit => u == .crc
  | .crcByte _ => u == .crc
  | .crcBit _ => u == .crc
  | .crcGet => u == .crc
  | .encSof => u == .enc
  | .encData _ => u == .enc
  | .encEof => u == .enc
  | .decRx _ => u == .dec
  | .decEos => u == .dec
  | .reset => true

/-- The wire byte that a one-byte decoder token presents: a byte class stands for its byte (R71). -/
def receivedByte (cfg : Config) : Instr → Option Byte
  | .delim => some cfg.delim
  | .esc => some cfg.esc
  | .data b => some b
  | .decRx d => some d
  | _ => none

/-- Whether a wire symbol is one that an encoder emits inside a frame: a literal or a legal escape (R73). -/
def legalBodySymbol : Instr → Bool
  | .data _ => true
  | .escDelim => true
  | .escEsc => true
  | _ => false

/-- The message bits that a `CRC.BIT` or `CRC.BYTE` token presents, in order (R53, R114). -/
def tokenBits : Instr → List Bool
  | .crcBit d => [d]
  | .crcByte d => bitsMsbFirst d
  | _ => []

/-! ## Pseudo-instructions (R91) -/

/-- `ENC.CHUNK p` (R91, R134). -/
def chunkTokens (p : List Byte) : List Instr := .encSof :: p.map .encData ++ [.encEof]

/-- `DEC.STREAM w` (R91, R198). -/
def streamTokens (w : List Byte) : List Instr := w.map .decRx

/-- `CRC.MSG p` (R91, R105). -/
def crcMsgTokens (p : List Byte) : List Instr := .crcInit :: p.map .crcByte ++ [.crcGet]

/-- `CRC.BYTE d` as bits (R91, R107). -/
def crcByteAsBits (d : Byte) : List Instr := (bitsMsbFirst d).map .crcBit

/-! ## The environment's drivers -/

/-- The chunks that the driver reads from a finite input, `k` bytes at a time (R196; assumption log 15). The
first argument bounds the number of chunks. -/
def chunksOf (k : Nat) : Nat → List Byte → List (List Byte)
  | 0, _ => []
  | fuel + 1, s => if s = [] then [] else s.take k :: chunksOf k fuel (s.drop k)

/-- The chunks of a whole input (R196); an ill-formed configuration is refused (R11). -/
def driverChunks (cfg : Config) (s : List Byte) : Host.Outcome (List (List Byte)) Fault Refusal :=
  whenWellFormed cfg (.next (chunksOf cfg.chunkSize s.length s))

/-- `encode_stream(s)` (R196): the frames of the chunks, adjacent; an ill-formed configuration is refused
(R11). -/
def encodeStream (cfg : Config) (s : List Byte) : Host.Outcome (List Byte) Fault Refusal :=
  match driverChunks cfg s with
  | .next cs => .next (cs.flatMap (frameBytes cfg))
  | .fault f => .fault f
  | .refused r => .refused r

/-- `events(w)` (R198): the events of `DEC.RX` over `w` and then `DEC.EOS`, from the reset state. -/
def decodeEvents (cfg : Config) (w : List Byte) : Host.Outcome (List Event) Fault Refusal :=
  match runWith (execWith cfg) (streamTokens w ++ [.decEos]) (State.initial cfg) with
  | .next (_, tr) => .next (eventsOf tr)
  | .fault f => .fault f
  | .refused r => .refused r

/-- `decode(w)` (R198): the payloads of the `Chunk` events, in order. -/
def decodeStream (cfg : Config) (w : List Byte) : Host.Outcome (List (List Byte)) Fault Refusal :=
  match decodeEvents cfg w with
  | .next es => .next (chunksIn es)
  | .fault f => .fault f
  | .refused r => .refused r

/-- What the sink holds (R197): the recovered chunks back to back. -/
def sinkOf (chunks : List (List Byte)) : List Byte := chunks.flatten

end Sys2Proof.Machine
end

