-- ==== Sys2Proof/Safety.lean ====
section
/-! DEFINITION. What counts as a good state (10_state.md section 3, 20_memory.md R50) and a safe run, in the
terms that the statements use. -/

namespace Sys2Proof.Machine

/-- The invariant of the state under a configuration. -/
structure GoodState (cfg : Config) (s : State) : Prop where
  /-- R27: `len <= MAX_FRAME`. -/
  lenBound : s.len ≤ cfg.maxFrame
  /-- R28: the buffer is empty in `Reset`. -/
  emptyInReset : s.rxState = .reset → s.len = 0
  /-- The memory is in its canonical form. -/
  bufWf : s.buf.wf = true
  /-- R50: the buffer has indices `0 .. MAX_FRAME-1`. -/
  bufInRange : ∀ c ∈ s.buf, c.1 < cfg.maxFrame
  /-- R25: every byte of `buf[0 ..< len]` has been collected. -/
  collected : ∀ a, a < s.len → (s.buf.read a).isSome = true

/-- The three items of the decoder as R166 sees them: the receive state and `buf[0 ..< len]`. -/
def DecHolds (cfg : Config) (s : State) (v : RxPair) : Prop :=
  s.rxState = v.1 ∧ bufContents cfg s = .ok v.2

/-- Two states that differ at most in the buffer's bytes at indices `>= len`, which no rule reads (R25,
R37). -/
structure AgreeBelowLen (s t : State) : Prop where
  crc : t.crc = s.crc
  encState : t.encState = s.encState
  encCrc : t.encCrc = s.encCrc
  rxState : t.rxState = s.rxState
  len : t.len = s.len
  out : t.out = s.out
  input : t.input = s.input
  below : ∀ a, a < s.len → t.buf.read a = s.buf.read a

/-- No step of any length of run from `s` is a fault. -/
def NeverFaults (s : State) : Prop := ∀ (k : Nat) (f : Fault), Host.Core.run core k s ≠ .fault f

/-- The decoder's registers and buffer are the same in two states. -/
def SameDec (s t : State) : Prop := t.rxState = s.rxState ∧ t.buf = s.buf ∧ t.len = s.len

/-- The encoder's registers are the same in two states. -/
def SameEnc (s t : State) : Prop := t.encState = s.encState ∧ t.encCrc = s.encCrc

/-- The CRC generator's register is the same in two states. -/
def SameCrc (s t : State) : Prop := t.crc = s.crc

end Sys2Proof.Machine
end

