-- ==== Sys2Proof/Certificates/Slice0/Obligations.lean ====
section
/-! DEFINITION. The statements for the provers. -/

open Sys2Proof Sys2Proof.Machine

/-! ## Encodings -/

/-- Words written out bit by bit from the tables of 30_encoding.md (R71, R73, R87), one of every family. -/
def Obligations.DecodesWrittenWords : Prop :=
  decode (.wire 0b01111110#8) = .ok .delim
  ∧ decode (.wire 0b01111101#8) = .ok .esc
  ∧ decode (.wire 0b01000001#8) = .ok (.data 0x41#8)
  ∧ decode (.symbol 0b0111110101111110#16) = .ok .escDelim
  ∧ decode (.symbol 0b0111110101000010#16) = .ok (.escOther 0x42#8)
  ∧ decode (.command 0b000101000001#12) = .ok (.crcByte 0x41#8)
  ∧ decode (.command 0b001000000001#12) = .ok (.crcBit true)
  ∧ decode (.command 0b010101111110#12) = .ok (.encData 0x7E#8)
  ∧ decode (.command 0b100001111110#12) = .ok (.decRx 0x7E#8)
  ∧ decode (.command 0b111100000000#12) = .ok .reset

/-- Decoding inverts encoding, for every well-formed instruction with every operand and under every
well-formed configuration (R71, R73, R86, R87). -/
def Obligations.DecodeInvertsEncode : Prop :=
  ∀ (cfg : Config) (i : Instr), cfg.wf = true → i.wf cfg = true →
    decodeWith cfg (encodeWith cfg i) = .ok i

/-- A word that decodes is the canonical word of its instruction (R71, R73, R86, R87), but for the bits of
`arg` that its token ignores: a token whose argument is the whole of `arg` ignores none, a token without an
argument ignores `arg`, and `CRC.BIT` reads `arg[0]` only. What decodes is well formed. -/
def Obligations.DecodeIgnoresOnlyUnusedBits : Prop :=
  (∀ (w : InputWord) (i : Instr), decode w = .ok i →
    i.wf Config.datvideo = true ∧ (encode i).format = w.format
    ∧ (w.format ≠ .K → encode i = w)
    ∧ (∀ k, w = .command k →
      (commandOp k ∈ [0x1#4, 0x5#4, 0x8#4] → encode i = w)
      ∧ ∃ arg, encode i = .command (commandWord (commandOp k) arg)))
  ∧ (∀ (op : BitVec 4) (a b : Byte), op ∈ [0x0#4, 0x3#4, 0x4#4, 0x6#4, 0x9#4, 0xF#4] →
    decode (.command (commandWord op a)) = decode (.command (commandWord op b))
    ∧ ∃ i, decode (.command (commandWord op a)) = .ok i ∧ encode i = .command (commandWord op 0x00#8))
  ∧ (∀ (a : Byte) (d : Bool),
    decode (.command (commandWord 0x2#4 a)) = .ok (.crcBit (a.getLsbD 0))
    ∧ encode (.crcBit d) = .command (commandWord 0x2#4 (if d then 0x01#8 else 0x00#8)))

/-- The decoder reads of every word exactly what the first matching row of the opcode table says (R71, R73,
R87), and refuses exactly the words that no row matches: the reserved command words (R90), and two bytes
presented as one symbol that do not begin with `ESC`, whose refusal is the model's choice (assumption
log 10). -/
def Obligations.DecodeAgreesWithOpcodeTable : Prop :=
  ∀ w : InputWord,
    firstRow w = (match decode w with | .ok i => some (opcodeRow i) | .error _ => none)

/-- R90: the reserved command words, and no others, spell no token, and a step refuses them. -/
def Obligations.ReservedCommandWordsAreRefused : Prop :=
  ∀ (k : BitVec 12) (s : State) (rest : List Input),
    (commandOp k ∈ [0x7#4, 0xA#4, 0xB#4, 0xC#4, 0xD#4, 0xE#4] →
      step (s.withInput (.word (.command k) :: rest)) = .refused (.reservedOpcode (commandOp k)))
    ∧ (commandOp k ∉ [0x7#4, 0xA#4, 0xB#4, 0xC#4, 0xD#4, 0xE#4] → ∃ i, decode (.command k) = .ok i)

/-! ## Steps -/

/-- A step whose next token decodes to `i` is `i` run with that token consumed. -/
def Obligations.StepRunsDecodedInstruction : Prop :=
  ∀ (s : State) (w : InputWord) (rest : List Input) (i : Instr),
    s.input = .word w :: rest → decode w = .ok i → step s = exec i (s.withInput rest)

/-- Without a token the state persists and nothing is output (R193). That a step of the machine then answers
at all is the model's choice: assumption log 8. -/
def Obligations.StepsWithoutAnInstruction : Prop :=
  ∀ s : State, s.input = [] → step s = .next { s with out := Output.silent }

/-- One token is one step (R85, R12): a step takes exactly the next token from the environment, whatever the
instruction. -/
def Obligations.StepTakesOneToken : Prop :=
  ∀ (s t : State) (x : Input) (rest : List Input),
    s.input = x :: rest → step s = .next t → t.input = rest

/-- The machine is the configurable core at this hardware's parameters, and an ill-formed configuration is
refused (R11): by every instruction and step, by `encode` and `decode`, and by the stream driver. -/
def Obligations.IllFormedConfigurationsAreRefused : Prop :=
  (∀ (i : Instr) (s : State), exec i s = execWith Config.datvideo i s ∧ step s = stepWith Config.datvideo s)
  ∧ (∀ (cfg : Config) (i : Instr) (s : State) (bs : List Byte),
    (cfg.delim = cfg.esc ∨ cfg.maxFrame < 2 ∨ cfg.chunkSize < 1) →
      execWith cfg i s = .refused .illFormedConfig ∧ stepWith cfg s = .refused .illFormedConfig
      ∧ encodeFrame cfg bs = .refused .illFormedConfig
      ∧ driverChunks cfg bs = .refused .illFormedConfig
      ∧ encodeStream cfg bs = .refused .illFormedConfig
      ∧ decodeEvents cfg bs = .refused .illFormedConfig
      ∧ decodeStream cfg bs = .refused .illFormedConfig)

/-! ## The CRC-16 generator -/

/-- R101, with its encoding. -/
def Obligations.CrcInitLoadsTheInitialValue : Prop :=
  (∀ a : Byte, decode (.command (commandWord 0x0#4 a)) = .ok .crcInit)
  ∧ ∀ s : State, exec .crcInit s = .next { s with crc := 0xFFFF#16, out := Output.silent }

/-- R102, with its encoding, as the shift and in flip-flop terms. -/
def Obligations.CrcBitShiftsTheRegister : Prop :=
  (∀ a : Byte, decode (.command (commandWord 0x2#4 a)) = .ok (.crcBit (a.getLsbD 0)))
  ∧ ∀ (s : State) (d : Bool), ∃ n : Word16,
    exec (.crcBit d) s = .next { s with crc := n, out := Output.silent }
    ∧ n = (s.crc <<< 1) ^^^ (if xor (s.crc.getLsbD 15) d then 0x1021#16 else 0x0000#16)
    ∧ n.getLsbD 0 = xor (s.crc.getLsbD 15) d
    ∧ n.getLsbD 5 = xor (s.crc.getLsbD 4) (xor (s.crc.getLsbD 15) d)
    ∧ n.getLsbD 12 = xor (s.crc.getLsbD 11) (xor (s.crc.getLsbD 15) d)
    ∧ ∀ i, 1 ≤ i → i ≤ 15 → i ≠ 5 → i ≠ 12 → n.getLsbD i = s.crc.getLsbD (i - 1)

/-- R106: the byte-parallel next-state equations. -/
def Obligations.CrcByteParallelEquations : Prop :=
  ∀ (s : State) (d : Byte), ∃ n : Word16,
    exec (.crcByte d) s = .next { s with crc := n, out := Output.silent }
    ∧ (let c := fun i => s.crc.getLsbD i
       let e := fun i => d.getLsbD i
       n.getLsbD 0 = (c 8 ^^ c 12 ^^ e 0 ^^ e 4)
       ∧ n.getLsbD 1 = (c 9 ^^ c 13 ^^ e 1 ^^ e 5)
       ∧ n.getLsbD 2 = (c 10 ^^ c 14 ^^ e 2 ^^ e 6)
       ∧ n.getLsbD 3 = (c 11 ^^ c 15 ^^ e 3 ^^ e 7)
       ∧ n.getLsbD 4 = (c 12 ^^ e 4)
       ∧ n.getLsbD 5 = (c 8 ^^ c 12 ^^ c 13 ^^ e 0 ^^ e 4 ^^ e 5)
       ∧ n.getLsbD 6 = (c 9 ^^ c 13 ^^ c 14 ^^ e 1 ^^ e 5 ^^ e 6)
       ∧ n.getLsbD 7 = (c 10 ^^ c 14 ^^ c 15 ^^ e 2 ^^ e 6 ^^ e 7)
       ∧ n.getLsbD 8 = (c 0 ^^ c 11 ^^ c 15 ^^ e 3 ^^ e 7)
       ∧ n.getLsbD 9 = (c 1 ^^ c 12 ^^ e 4)
       ∧ n.getLsbD 10 = (c 2 ^^ c 13 ^^ e 5)
       ∧ n.getLsbD 11 = (c 3 ^^ c 14 ^^ e 6)
       ∧ n.getLsbD 12 = (c 4 ^^ c 8 ^^ c 12 ^^ c 15 ^^ e 0 ^^ e 4 ^^ e 7)
       ∧ n.getLsbD 13 = (c 5 ^^ c 9 ^^ c 13 ^^ e 1 ^^ e 5)
       ∧ n.getLsbD 14 = (c 6 ^^ c 10 ^^ c 14 ^^ e 2 ^^ e 6)
       ∧ n.getLsbD 15 = (c 7 ^^ c 11 ^^ c 15 ^^ e 3 ^^ e 7))

/-- R107: eight `CRC.BIT` steps, bit 7 first, end in the state that the one `CRC.BYTE` step ends in. -/
def Obligations.SerialAndParallelFormsAgree : Prop :=
  ∀ (s : State) (d : Byte), ∃ (t : State) (tr : List TraceEntry),
    exec (.crcByte d) s = .next t
    ∧ crcByteAsBits d = [.crcBit (d.getLsbD 7), .crcBit (d.getLsbD 6), .crcBit (d.getLsbD 5),
        .crcBit (d.getLsbD 4), .crcBit (d.getLsbD 3), .crcBit (d.getLsbD 2), .crcBit (d.getLsbD 1),
        .crcBit (d.getLsbD 0)]
    ∧ runTokens (crcByteAsBits d) s = .next (t, tr)

/-- R114: `CRC.BIT` and `CRC.BYTE` in any interleaving advance the one register, bit by bit. -/
def Obligations.MixedWidthsAdvanceOneRegister : Prop :=
  ∀ (is : List Instr) (s : State), (∀ i ∈ is, (∃ d, i = .crcBit d) ∨ ∃ d, i = .crcByte d) →
    ∃ (t : State) (tr : List TraceEntry), runTokens is s = .next (t, tr)
      ∧ t.crc = (is.flatMap tokenBits).foldl (bitStep CrcParams.datvideo) s.crc
      ∧ SameEnc s t ∧ SameDec s t ∧ t.input = s.input

/-- R104, with its encoding. -/
def Obligations.CrcGetReturnsTheChecksum : Prop :=
  (∀ a : Byte, decode (.command (commandWord 0x3#4 a)) = .ok .crcGet)
  ∧ ∀ s : State, exec .crcGet s
    = .next { s with out := { crcOut := some s.crc, outBytes := [], event := .none } }

/-- R105: `CRC.MSG p` outputs `CRC16(p)`, from any state. -/
def Obligations.CrcMessageOutputsCrc16 : Prop :=
  ∀ (p : List Byte) (s : State), ∃ (t : State) (tr : List TraceEntry),
    runTokens (crcMsgTokens p) s = .next (t, tr)
    ∧ crcOuts tr = [p.foldl (byteStep CrcParams.datvideo) 0xFFFF#16]
    ∧ crc16 CrcParams.datvideo p = p.foldl (byteStep CrcParams.datvideo) 0xFFFF#16
    ∧ t.crc = crc16 CrcParams.datvideo p ∧ SameEnc s t ∧ SameDec s t

/-- R110: linearity over GF(2) of the two steps, and of the whole checksum up to the initial value. -/
def Obligations.ChecksumIsLinear : Prop :=
  (∀ (p : CrcParams) (c c' : Word16) (x x' : Bool),
    bitStep p (c ^^^ c') (xor x x') = bitStep p c x ^^^ bitStep p c' x')
  ∧ (∀ (p : CrcParams) (c c' : Word16) (d d' : Byte),
    byteStep p (c ^^^ c') (d ^^^ d') = byteStep p c d ^^^ byteStep p c' d')
  ∧ (∀ a b : List Byte, a.length = b.length →
    crc16 CrcParams.datvideo a ^^^ crc16 CrcParams.datvideo b
      = crcRun CrcParams.datvideo 0x0000#16 (List.zipWith (· ^^^ ·) a b))

/-- R103 and R108: the software, nibble and table forms are the byte step of this hardware. -/
def Obligations.ByteStepFormsAreEqual : Prop :=
  ∀ (c : Word16) (d : Byte),
    byteStepSoftware CrcParams.datvideo c d = byteStep CrcParams.datvideo c d
    ∧ byteStepNibble c d = byteStep CrcParams.datvideo c d
    ∧ byteStepTable CrcParams.datvideo c d = byteStep CrcParams.datvideo c d

/-- R111: two different messages of one length whose differing bits lie within a window of 16 consecutive
bit positions have different checksums; the 17-bit error equal to the polynomial goes undetected. -/
def Obligations.BurstErrorsAreDetected : Prop :=
  (∀ (a b : List Byte) (k : Nat), a.length = b.length → a ≠ b →
    (∀ j, (messageBits a)[j]? ≠ (messageBits b)[j]? → k ≤ j ∧ j < k + 16) →
    crc16 CrcParams.datvideo a ≠ crc16 CrcParams.datvideo b)
  ∧ crc16 CrcParams.datvideo [0x01#8, 0x10#8, 0x21#8] = crc16 CrcParams.datvideo [0x00#8, 0x00#8, 0x00#8]

/-- R112: the residue, and the zero test it allows a decoder at a close (R169). -/
def Obligations.ResidueIsZero : Prop :=
  (∀ p : List Byte,
    crc16 CrcParams.datvideo (p ++ [hi8 (crc16 CrcParams.datvideo p), lo8 (crc16 CrcParams.datvideo p)])
      = 0x0000#16)
  ∧ (∀ (payload : List Byte) (h l : Byte),
    (crcRun CrcParams.datvideo 0xFFFF#16 (payload ++ [h, l]) = 0x0000#16
      ↔ bigEndian h l = crc16 CrcParams.datvideo payload)
    ∧ (streamingCheck Config.datvideo (payload ++ [h, l]) = true
      ↔ bigEndian h l = crc16 CrcParams.datvideo payload))

/-! ## The encoder -/

/-- R131, with its encoding and its refusal. -/
def Obligations.EncSofOpensTheFrame : Prop :=
  (∀ a : Byte, decode (.command (commandWord 0x4#4 a)) = .ok .encSof)
  ∧ (∀ s : State, s.encState = .encIdle →
    exec .encSof s
      = .next { s with encState := .encBusy, encCrc := 0xFFFF#16,
                       out := { crcOut := none, outBytes := [0x7E#8], event := .none } })
  ∧ ∀ s : State, s.encState = .encBusy → exec .encSof s = .refused .sofWhileBusy

/-- R132, with its encoding, its refusal and the escape rule of R135. -/
def Obligations.EncDataStuffsTheByte : Prop :=
  (∀ d : Byte, decode (.command (commandWord 0x5#4 d)) = .ok (.encData d))
  ∧ (∀ (s : State) (d : Byte), s.encState = .encBusy →
    exec (.encData d) s
      = .next { s with encCrc := byteStep CrcParams.datvideo s.encCrc d,
                       out := { crcOut := none,
                                outBytes := if d = 0x7E#8 ∨ d = 0x7D#8 then [0x7D#8, d] else [d],
                                event := .none } })
  ∧ ∀ (s : State) (d : Byte), s.encState = .encIdle → exec (.encData d) s = .refused .dataWhileIdle

/-- R133, with its encoding and its refusal, for the checksum's two bytes `h` and `l`; three to five bytes
are output. -/
def Obligations.EncEofClosesTheFrame : Prop :=
  (∀ a : Byte, decode (.command (commandWord 0x6#4 a)) = .ok .encEof)
  ∧ (∀ (s : State) (h l : Byte), s.encState = .encBusy → s.encCrc = h ++ l →
    ∃ bs : List Byte,
      exec .encEof s
        = .next { s with encState := .encIdle, out := { crcOut := none, outBytes := bs, event := .none } }
      ∧ bs = (if h = 0x7E#8 ∨ h = 0x7D#8 then [0x7D#8, h] else [h])
          ++ (if l = 0x7E#8 ∨ l = 0x7D#8 then [0x7D#8, l] else [l]) ++ [0x7E#8]
      ∧ 3 ≤ bs.length ∧ bs.length ≤ 5)
  ∧ ∀ s : State, s.encState = .encIdle → exec .encEof s = .refused .eofWhileIdle

/-- R137: from `EncIdle` the encoder's token programs that run are the repetitions of
`ENC.SOF (ENC.DATA d)* ENC.EOF`, of which the last may be unfinished. -/
def Obligations.AcceptedEncoderProgramsAreChunks : Prop :=
  ∀ (is : List Instr) (s : State), s.encState = .encIdle →
    (∀ i ∈ is, i = .encSof ∨ i = .encEof ∨ ∃ d, i = .encData d) →
    ((∃ (t : State) (tr : List TraceEntry), runTokens is s = .next (t, tr))
      ↔ ∃ (ps : List (List Byte)) (tl : List Instr), is = ps.flatMap chunkTokens ++ tl
          ∧ (tl = [] ∨ ∃ q : List Byte, tl = .encSof :: q.map .encData))

/-- R134: the tokens of a chunk output the frame of R130, and leave the other units alone. -/
def Obligations.ChunkTokensEmitTheFrame : Prop :=
  ∀ (p : List Byte) (s : State), s.encState = .encIdle →
    ∃ (t : State) (tr : List TraceEntry), runTokens (chunkTokens p) s = .next (t, tr)
      ∧ encodeFrame Config.datvideo p = .next (wireBytes tr) ∧ t.encState = .encIdle
      ∧ eventsOf tr = [] ∧ SameCrc s t ∧ SameDec s t ∧ t.input = s.input

/-- R79: the length of a frame, its bounds, and the minimal frame. -/
def Obligations.FrameLengthCountsReservedBytes : Prop :=
  (∀ p : List Byte, ∃ f : List Byte, encodeFrame Config.datvideo p = .next f
    ∧ f.length
      = p.length + 4 + (frameBody Config.datvideo p).countP (fun b => b == 0x7E#8 || b == 0x7D#8)
    ∧ p.length + 4 ≤ f.length ∧ f.length ≤ 2 * p.length + 6)
  ∧ encodeFrame Config.datvideo [] = .next [0x7E#8, 0xFF#8, 0xFF#8, 0x7E#8]

/-- R140: between its two delimiters a frame parses into literals and legal escapes, complete, which
contribute the payload and its checksum. -/
def Obligations.FrameBodyParsesIntoLegalSymbols : Prop :=
  ∀ p : List Byte, ∃ (body : List Byte) (ss : List Instr),
    encodeFrame Config.datvideo p = .next ([0x7E#8] ++ body ++ [0x7E#8])
    ∧ parseSymbols Config.datvideo body = some ss
    ∧ (∀ i ∈ ss, legalBodySymbol i = true)
    ∧ ss.filterMap (Instr.contributes Config.datvideo) = frameBody Config.datvideo p

/-! ## The decoder -/

/-- R151 and R152: in `Reset` a byte that is not `DELIM` is discarded, and `DELIM` opens a frame. -/
def Obligations.ResetStateHuntsForDelim : Prop :=
  ∀ (s : State) (d : Byte), s.rxState = .reset →
    (d ≠ 0x7E#8 → exec (.decRx d) s = .next { s with out := Output.silent })
    ∧ (d = 0x7E#8 → exec (.decRx d) s
        = .next { s with rxState := .inFrame, len := 0, out := Output.silent })

/-- R154: `ESC` in a frame, whatever `len` is. -/
def Obligations.EscapeKeepsTheBuffer : Prop :=
  ∀ s : State, s.rxState = .inFrame →
    exec (.decRx 0x7D#8) s = .next { s with rxState := .inEscape, out := Output.silent }

/-- R156 and R157: a data byte in `InFrame` and a reserved byte in `InEscape` are stored at index `len`,
unmodified, when there is room; every other byte of the buffer reads as before. -/
def Obligations.AppendStoresAtLen : Prop :=
  ∀ (s : State) (d : Byte),
    ((s.rxState = .inFrame ∧ d ≠ 0x7E#8 ∧ d ≠ 0x7D#8)
      ∨ (s.rxState = .inEscape ∧ (d = 0x7E#8 ∨ d = 0x7D#8))) →
    s.len + 1 ≤ 1048576 →
    ∃ m : Memory,
      exec (.decRx d) s
        = .next { s with buf := m, len := s.len + 1, rxState := .inFrame, out := Output.silent }
      ∧ m.read (appendIndex s) = some d
      ∧ (∀ a, a ≠ appendIndex s → m.read a = s.buf.read a)
      ∧ (s.buf.wf = true → m.wf = true)

/-- R155 and R158: the same bytes with the buffer full raise `LongFrame`; the byte is dropped. -/
def Obligations.FullBufferRaisesLongFrame : Prop :=
  ∀ (s : State) (d : Byte),
    ((s.rxState = .inFrame ∧ d ≠ 0x7E#8 ∧ d ≠ 0x7D#8)
      ∨ (s.rxState = .inEscape ∧ (d = 0x7E#8 ∨ d = 0x7D#8))) →
    s.len + 1 > 1048576 →
    exec (.decRx d) s
      = .next { s with rxState := .reset, len := 0,
                       out := { crcOut := none, outBytes := [], event := .condition .longFrame } }

/-- R159: any other byte in `InEscape`, whatever `len` is. -/
def Obligations.DataAfterEscapeIsInvalid : Prop :=
  ∀ (s : State) (d : Byte), s.rxState = .inEscape → d ≠ 0x7E#8 → d ≠ 0x7D#8 →
    exec (.decRx d) s
      = .next { s with rxState := .reset, len := 0,
                       out := { crcOut := none, outBytes := [], event := .condition .invalidEscape } }

/-- R160 to R164: the closing rule. Fewer than two bytes are a short frame; otherwise the last two are the
received checksum, high byte first, and are compared with the checksum of the bytes before them. -/
def Obligations.CloseChecksTheFrame : Prop :=
  (∀ s : State, s.rxState = .inFrame → s.len < 2 →
    exec (.decRx 0x7E#8) s
      = .next { s with rxState := .reset, len := 0,
                       out := { crcOut := none, outBytes := [], event := .condition .shortFrame } })
  ∧ (∀ (s : State) (payload : List Byte) (h l : Byte), s.rxState = .inFrame →
    bufContents Config.datvideo s = .ok (payload ++ [h, l]) →
    exec (.decRx 0x7E#8) s
      = .next { s with rxState := .reset, len := 0,
                       out := { crcOut := none, outBytes := [],
                                event := if h ++ l = crc16 CrcParams.datvideo payload
                                  then .chunk payload else .condition .crcMismatch } })

/-- R166: every one-byte decoder token, in every state that satisfies the invariant, takes exactly the step
of the complete transition table, and completes (R150). -/
def Obligations.ReceiveRefinesTransitionTable : Prop :=
  ∀ (s : State) (v : RxPair) (i : Instr) (d : Byte),
    GoodState Config.datvideo s → DecHolds Config.datvideo s v → receivedByte Config.datvideo i = some d →
    ∃ t : State, exec i s = .next t
      ∧ DecHolds Config.datvideo t (rxTable Config.datvideo v d).1
      ∧ t.out = { crcOut := none, outBytes := [], event := (rxTable Config.datvideo v d).2 }
      ∧ SameCrc s t ∧ SameEnc s t ∧ t.input = s.input

/-- R232: whatever byte raises a condition, the entry is the event, the buffer cleared and `Reset`, and it
saves and changes nothing else. -/
def Obligations.ConditionEntryClearsAndResets : Prop :=
  ∀ (s t : State) (d : Byte) (c : Condition),
    exec (.decRx d) s = .next t → t.out.event = .condition c →
    t = { s with rxState := .reset, len := 0,
                 out := { crcOut := none, outBytes := [], event := .condition c } }

/-- Which byte in which state, and with how many collected bytes, an event needs (R165, and the last column
of R220's table). -/
def Obligations.EventsNeedTheirByteAndState : Prop :=
  ∀ (s t : State) (d : Byte), exec (.decRx d) s = .next t →
    ((∃ p, t.out.event = .chunk p) ∨ t.out.event = .condition .crcMismatch →
        d = 0x7E#8 ∧ s.rxState = .inFrame ∧ 2 ≤ s.len)
    ∧ (t.out.event = .condition .shortFrame → d = 0x7E#8 ∧ s.rxState = .inFrame ∧ s.len < 2)
    ∧ (t.out.event = .condition .longFrame →
        s.len + 1 > 1048576
        ∧ ((s.rxState = .inFrame ∧ d ≠ 0x7E#8 ∧ d ≠ 0x7D#8)
          ∨ (s.rxState = .inEscape ∧ (d = 0x7E#8 ∨ d = 0x7D#8))))
    ∧ (t.out.event = .condition .invalidEscape →
        s.rxState = .inEscape ∧ d ≠ 0x7E#8 ∧ d ≠ 0x7D#8)

/-- R29: the decoder is in `InEscape` after a step exactly when it was in `InFrame` and the byte was `ESC`;
so it is never there for two consecutive steps. -/
def Obligations.EscapeStateLastsOneByte : Prop :=
  ∀ (s t : State) (d : Byte), exec (.decRx d) s = .next t →
    (t.rxState = .inEscape ↔ s.rxState = .inFrame ∧ d = 0x7D#8)

/-- R168 and R60: no instruction of any unit modifies a collected byte, and an instruction of one unit
leaves the registers and the outputs of the others alone. -/
def Obligations.InstructionsKeepToTheirUnit : Prop :=
  ∀ (i : Instr) (s t : State), exec i s = .next t →
    (∀ a, a < s.len → t.buf.read a = s.buf.read a)
    ∧ (concerns .crc i = false → SameCrc s t ∧ t.out.crcOut = none)
    ∧ (concerns .enc i = false → SameEnc s t ∧ t.out.outBytes = [])
    ∧ (concerns .dec i = false → SameDec s t ∧ t.out.event = .none)

/-- The two-byte symbols are the two bytes received one after the other (30_encoding.md section 4), and at
most one of the two has an event, which the symbol's step outputs (assumption log 7); in every state that
satisfies the invariant the symbol completes (R150). -/
def Obligations.SymbolsAreTwoReceivedBytes : Prop :=
  (∀ (s t u : State) (x : Byte),
    exec (.decRx 0x7D#8) s = .next t → exec (.decRx x) t = .next u →
    (t.out.event = .none ∨ u.out.event = .none)
    ∧ exec (decodeEscaped Config.datvideo x) s
      = .next { u with out := { u.out with event :=
          if u.out.event = .none then t.out.event else u.out.event } })
  ∧ (∀ s : State, GoodState Config.datvideo s →
    (∃ u, exec .escDelim s = .next u) ∧ (∃ u, exec .escEsc s = .next u)
    ∧ (∀ x : Byte, ∃ u, exec (.escOther x) s = .next u))

/-- R73, R157, R159: inside a frame a legal two-byte symbol contributes its second byte when there is room,
and the illegal symbol raises `InvalidEscape`. -/
def Obligations.SymbolsInsideAFrame : Prop :=
  ∀ s : State, s.rxState = .inFrame →
    (s.len + 1 ≤ 1048576 → ∃ m : Memory,
      exec .escDelim s = .next { s with buf := m, len := s.len + 1, out := Output.silent }
      ∧ m.read (appendIndex s) = some 0x7E#8 ∧ ∀ a, a ≠ appendIndex s → m.read a = s.buf.read a)
    ∧ (s.len + 1 ≤ 1048576 → ∃ m : Memory,
      exec .escEsc s = .next { s with buf := m, len := s.len + 1, out := Output.silent }
      ∧ m.read (appendIndex s) = some 0x7D#8 ∧ ∀ a, a ≠ appendIndex s → m.read a = s.buf.read a)
    ∧ (∀ x : Byte, x ≠ 0x7E#8 → x ≠ 0x7D#8 →
      exec (.escOther x) s
        = .next { s with rxState := .reset, len := 0,
                         out := { crcOut := none, outBytes := [], event := .condition .invalidEscape } })

/-! ## System operations and reset -/

/-- R191, with its encoding: the end of the stream abandons a frame in progress, with no event, in every
state. -/
def Obligations.EndOfStreamAbandonsTheFrame : Prop :=
  (∀ a : Byte, decode (.command (commandWord 0x9#4 a)) = .ok .decEos)
  ∧ ∀ s : State, exec .decEos s = .next { s with rxState := .reset, len := 0, out := Output.silent }

/-- R190, with its encoding: every unit in every state, and one unit alone. -/
def Obligations.ResetTokenResetsEveryUnit : Prop :=
  (∀ a : Byte, decode (.command (commandWord 0xF#4 a)) = .ok .reset)
  ∧ (∀ s : State, exec .reset s
    = .next { s with crc := 0xFFFF#16, encState := .encIdle, encCrc := 0xFFFF#16, rxState := .reset,
                     len := 0, out := Output.silent })
  ∧ (∀ (s : State) (u : UnitId) (rest : List Input), s.input = .resetUnit u :: rest →
    ∃ t, step s = .next t ∧ t.input = rest ∧ t.out = Output.silent ∧ t.buf = s.buf
      ∧ (if u = .crc then t.crc = 0xFFFF#16 else SameCrc s t)
      ∧ (if u = .enc then t.encState = .encIdle ∧ t.encCrc = 0xFFFF#16 else SameEnc s t)
      ∧ (if u = .dec then t.rxState = .reset ∧ t.len = 0 else SameDec s t))

/-- R35: the machine right after reset, and after the `RESET` token in any state. -/
def Obligations.ResetStateHoldsTheResetValues : Prop :=
  (State.reset.rxState = .reset ∧ State.reset.len = 0 ∧ State.reset.encState = .encIdle
    ∧ State.reset.encCrc = 0xFFFF#16 ∧ State.reset.crc = 0xFFFF#16)
  ∧ ∀ s : State, ∃ t : State, exec .reset s = .next t
    ∧ t.rxState = .reset ∧ t.len = 0 ∧ t.encState = .encIdle ∧ t.encCrc = 0xFFFF#16 ∧ t.crc = 0xFFFF#16

/-! ## Invariants and isolation -/

/-- The reset state satisfies the invariant. -/
def Obligations.ResetSatisfiesTheInvariant : Prop := GoodState Config.datvideo State.reset

/-- R27, R28 and R50: every step keeps the invariant. -/
def Obligations.StepKeepsTheInvariant : Prop :=
  ∀ s t : State, GoodState Config.datvideo s → step s = .next t → GoodState Config.datvideo t

/-- R207: from a state that satisfies the invariant no run faults, whatever tokens wait. -/
def Obligations.RunsFromTheInvariantNeverFault : Prop :=
  ∀ s : State, GoodState Config.datvideo s → NeverFaults s

/-- R37: two states that differ only in stale buffer bytes give every instruction the same outcome, the same
outputs, and again states that differ only in stale bytes. -/
def Obligations.StaleBufferBytesAreUnobservable : Prop :=
  ∀ (i : Instr) (s s' t : State), AgreeBelowLen s s' → exec i s = .next t →
    ∃ t' : State, exec i s' = .next t' ∧ AgreeBelowLen t t'

/-- R60: the steps of one unit give the same register values and outputs in any interleaving with the steps
of the others, and alone. -/
def Obligations.InterleavingDoesNotMatter : Prop :=
  ∀ (u : UnitId) (is : List Instr) (s t : State) (tr : List TraceEntry),
    runTokens is s = .next (t, tr) →
    ∃ t' : State,
      runTokens (is.filter (concerns u)) s = .next (t', tr.filter (fun e => concerns u e.instr))
      ∧ (u = .crc → SameCrc t t') ∧ (u = .enc → SameEnc t t') ∧ (u = .dec → SameDec t t')

/-! ## Laws of the encoder and the decoder -/

/-- R200: the round trip, under every well-formed configuration, from any reset state of the decoder. -/
def Obligations.EncodedChunkIsRecovered : Prop :=
  ∀ (cfg : Config) (p : List Byte) (s : State),
    cfg.wf = true → p.length + 2 ≤ cfg.maxFrame → s.rxState = .reset → s.len = 0 →
    ∃ (f : List Byte) (t : State) (tr : List TraceEntry), encodeFrame cfg p = .next f
      ∧ runWith (execWith cfg) (streamTokens f) s = .next (t, tr)
      ∧ eventsOf tr = [.chunk p] ∧ chunksIn (eventsOf tr) = [p] ∧ t.rxState = .reset ∧ t.len = 0

/-- R201: frames are independent, with any bytes other than `DELIM` before, between and after them. -/
def Obligations.ConcatenatedFramesAreRecovered : Prop :=
  ∀ (cfg : Config) (g0 : List Byte) (frames : List (List Byte × List Byte)),
    cfg.wf = true → cfg.delim ∉ g0 →
    (∀ f ∈ frames, f.1.length + 2 ≤ cfg.maxFrame ∧ cfg.delim ∉ f.2) →
    (∀ f ∈ frames, encodeFrame cfg f.1 = .next (frameBytes cfg f.1))
    ∧ decodeEvents cfg (g0 ++ frames.flatMap (fun f => frameBytes cfg f.1 ++ f.2))
      = .next (frames.map (fun f => .chunk f.1))

/-- R202 and R33: between two steps the decoder is its receive state and its collected bytes. From every
state that satisfies the invariant the run over a byte sequence completes, ends where the left fold of R166's
`step` ends, and has the events of that fold; and it is the run over a first part and then, from the state so
reached, the run over the rest, wherever the sequence is split. -/
def Obligations.FragmentationDoesNotMatter : Prop :=
  ∀ (s : State) (v : RxPair) (w1 w2 : List Byte),
    GoodState Config.datvideo s → DecHolds Config.datvideo s v →
    ∃ (t u : State) (tr1 tr2 : List TraceEntry),
      runTokens (streamTokens w1) s = .next (t, tr1)
      ∧ DecHolds Config.datvideo t (w1.foldl (rxTableStep Config.datvideo) (v, [])).1
      ∧ eventsOf tr1 = (w1.foldl (rxTableStep Config.datvideo) (v, [])).2.filter Event.isSome
      ∧ runTokens (streamTokens w2) t = .next (u, tr2)
      ∧ runTokens (streamTokens (w1 ++ w2)) s = .next (u, tr1 ++ tr2)
      ∧ DecHolds Config.datvideo u ((w1 ++ w2).foldl (rxTableStep Config.datvideo) (v, [])).1
      ∧ eventsOf (tr1 ++ tr2)
        = ((w1 ++ w2).foldl (rxTableStep Config.datvideo) (v, [])).2.filter Event.isSome

/-- R203, in its exact form: one bit of a literal byte inverted, the result still no reserved byte. From
every state of the decoder in `Reset` with an empty buffer the damaged frame gives `CrcMismatch` and no
chunk, and leaves the decoder there. -/
def Obligations.InvertedLiteralBitIsDetected : Prop :=
  ∀ (p : List Byte) (j k : Nat) (b : Byte) (s : State),
    p.length + 2 ≤ 1048576 → (frameBody Config.datvideo p)[j]? = some b → k < 8 →
    reserved Config.datvideo b = false → reserved Config.datvideo (b ^^^ (1#8 <<< k)) = false →
    s.rxState = .reset → s.len = 0 →
    ∃ (i : Nat) (f w : List Byte) (t : State) (tr : List TraceEntry),
      encodeFrame Config.datvideo p = .next f
      ∧ i = 1 + (((frameBody Config.datvideo p).take j).flatMap (stuffed Config.datvideo)).length
      ∧ f[i]? = some b
      ∧ w = f.set i (b ^^^ (1#8 <<< k))
      ∧ runTokens (streamTokens w) s = .next (t, tr)
      ∧ eventsOf tr = [.condition .crcMismatch] ∧ chunksIn (eventsOf tr) = []
      ∧ t.rxState = .reset ∧ t.len = 0
      ∧ decodeEvents Config.datvideo w = .next [.condition .crcMismatch]
      ∧ decodeStream Config.datvideo w = .next []

/-- R204: the `(MAX_FRAME + 1)`-th symbol of a body raises `LongFrame`, on its last byte, and a body of
exactly `MAX_FRAME` bytes closes normally. -/
def Obligations.OversizedFrameIsDropped : Prop :=
  ∀ (cfg : Config) (m : List Byte) (s : State),
    cfg.wf = true → s.rxState = .reset → s.len = 0 →
    (m.length = cfg.maxFrame + 1 → ∃ (t : State) (tr : List TraceEntry) (e : TraceEntry),
      runWith (execWith cfg) (streamTokens ([cfg.delim] ++ m.flatMap (stuffed cfg))) s
        = .next (t, tr ++ [e])
      ∧ eventsOf tr = [] ∧ e.out.event = .condition .longFrame ∧ t.rxState = .reset ∧ t.len = 0)
    ∧ (m.length = cfg.maxFrame → ∃ (t : State) (tr : List TraceEntry),
      runWith (execWith cfg) (streamTokens ([cfg.delim] ++ m.flatMap (stuffed cfg) ++ [cfg.delim])) s
        = .next (t, tr)
      ∧ eventsOf tr = [if bodyChecksum m = crc16 cfg.crc (bodyPayload m) then .chunk (bodyPayload m)
          else .condition .crcMismatch]
      ∧ t.rxState = .reset ∧ t.len = 0)

/-- R208: a chunk that the decoder delivers is what the wire held between the delimiter that opened the
frame and the one that closed it, with its own correct checksum. -/
def Obligations.DeliveredChunksWereOnTheWire : Prop :=
  ∀ (w : List Byte) (s t : State) (tr : List TraceEntry) (e : TraceEntry) (p : List Byte),
    s.rxState = .reset → s.len = 0 →
    runTokens (streamTokens w) s = .next (t, tr ++ [e]) → e.out.event = .chunk p →
    ∃ (pre body : List Byte) (ss : List Instr) (u : State) (tr0 : List TraceEntry),
      w = pre ++ [0x7E#8] ++ body ++ [0x7E#8]
      ∧ runTokens (streamTokens pre) s = .next (u, tr0) ∧ u.rxState = .reset
      ∧ parseSymbols Config.datvideo body = some ss
      ∧ (∀ i ∈ ss, legalBodySymbol i = true)
      ∧ ss.filterMap (Instr.contributes Config.datvideo)
          = p ++ [hi8 (crc16 CrcParams.datvideo p), lo8 (crc16 CrcParams.datvideo p)]

/-- R209: every close has used two delimiters, and there is at most one event a byte. -/
def Obligations.EventsAreBoundedByDelimiters : Prop :=
  ∀ (w : List Byte) (s t : State) (tr : List TraceEntry),
    s.rxState = .reset → s.len = 0 → runTokens (streamTokens w) s = .next (t, tr) →
    2 * (eventsOf tr).countP (fun ev => ev.code == 1 || ev.code == 2 || ev.code == 5) ≤ w.count 0x7E#8
    ∧ (eventsOf tr).length ≤ w.length

/-- R237: the report counts the events since the last `RESET`, each in exactly one count. -/
def Obligations.ReportCountsEventsSinceReset : Prop :=
  ∀ (tr1 tr2 : List TraceEntry) (e : TraceEntry), e.instr = .reset → (∀ x ∈ tr2, x.instr ≠ .reset) →
    ∃ r : Report, r = reportOfTrace (tr1 ++ [e] ++ tr2)
      ∧ r.nValid = (chunksIn (eventsOf tr2)).length
      ∧ r.nShort = (eventsOf tr2).count (.condition .shortFrame)
      ∧ r.nLong = (eventsOf tr2).count (.condition .longFrame)
      ∧ r.nInvalidEscape = (eventsOf tr2).count (.condition .invalidEscape)
      ∧ r.nCrc = (eventsOf tr2).count (.condition .crcMismatch)
      ∧ r.nValid + r.nShort + r.nLong + r.nCorrupt = (eventsOf tr2).length

/-- R277: a run of delimiters is read as empty frames. -/
def Obligations.DelimiterFillIsShortFrames : Prop :=
  ∀ (j : Nat) (s : State), s.rxState = .reset → s.len = 0 →
    ∃ (t : State) (tr : List TraceEntry),
      runTokens (streamTokens (List.replicate j 0x7E#8)) s = .next (t, tr)
      ∧ eventsOf tr = List.replicate (j / 2) (.condition .shortFrame)
      ∧ t.rxState = (if j % 2 = 0 then .reset else .inFrame) ∧ t.len = 0

/-- R270 and R271: out of phase (in an empty frame that the sender did not open), every well-formed frame
whose body holds no delimiter value is lost: it produces one `ShortFrame` and no `Chunk`, and leaves the
decoder out of phase. -/
def Obligations.OutOfPhaseFramesAreLost : Prop :=
  ∀ (ps : List (List Byte)) (s : State), s.rxState = .inFrame → s.len = 0 →
    (∀ p ∈ ps, 0x7E#8 ∉ frameBody Config.datvideo p) →
    ∃ (t : State) (tr : List TraceEntry),
      (∀ p ∈ ps, encodeFrame Config.datvideo p = .next (frameBytes Config.datvideo p))
      ∧ runTokens (streamTokens (ps.flatMap (frameBytes Config.datvideo))) s = .next (t, tr)
      ∧ eventsOf tr = List.replicate ps.length (.condition .shortFrame)
      ∧ chunksIn (eventsOf tr) = [] ∧ t.rxState = .inFrame ∧ t.len = 0

/-- R282: the bytes `00 7D 00` force the decoder into `Reset` from every state, at the cost of at most one
condition. -/
def Obligations.FillForcesReset : Prop :=
  ∀ s : State, GoodState Config.datvideo s →
    ∃ (t : State) (tr : List TraceEntry),
      runTokens (streamTokens [0x00#8, 0x7D#8, 0x00#8]) s = .next (t, tr)
      ∧ t.rxState = .reset ∧ t.len = 0
      ∧ eventsOf tr = (match s.rxState with
          | .reset => []
          | .inFrame =>
            if s.len + 1 > 1048576 then [.condition .longFrame] else [.condition .invalidEscape]
          | .inEscape => [.condition .invalidEscape])

/-- R196, R197 and R201: what the stream driver encodes, the decoder recovers chunk by chunk, and the sink
holds the input, under every configuration that R11 calls well formed for this law. -/
def Obligations.EncodedStreamIsRecovered : Prop :=
  ∀ (cfg : Config) (input : List Byte), cfg.wf = true → cfg.coversChunks = true →
    ∃ (chunks : List (List Byte)) (w : List Byte),
      driverChunks cfg input = .next chunks ∧ encodeStream cfg input = .next w
      ∧ decodeStream cfg w = .next chunks
      ∧ sinkOf chunks = input
      ∧ (∀ c ∈ chunks, 1 ≤ c.length ∧ c.length ≤ cfg.chunkSize)
      ∧ (encodeStream cfg [] = .next [] ∧ decodeStream cfg [] = .next [])
end

