-- ==== Sys2Proof/Laws/Memory.lean ====
section
/-! SUPPORT. The laws of the accumulation buffer's memory: read after write, the canonical form kept by every
write, and what a read of a range can answer. -/

namespace Sys2Proof.Machine

@[simp] theorem Memory.read_nil (a : Nat) : Memory.read [] a = none := rfl

theorem Memory.read_cons (k : Nat) (v : Byte) (m : Memory) (a : Nat) :
    Memory.read ((k, v) :: m) a = if k = a then some v else Memory.read m a := rfl

/-- The byte just written is read back. -/
@[simp] theorem Memory.read_write_same (m : Memory) (a : Nat) (v : Byte) :
    (m.write a v).read a = some v := by
  induction m with
  | nil => simp [Memory.write, Memory.read]
  | cons c m ih =>
    obtain ⟨k, w⟩ := c
    by_cases hlt : a < k
    · simp [Memory.write, hlt, Memory.read]
    · by_cases heq : a = k
      · simp [Memory.write, heq, Memory.read]
      · simp [Memory.write, hlt, heq, Memory.read, Ne.symm heq, ih]

/-- A write leaves every other index alone. -/
@[simp] theorem Memory.read_write_other (m : Memory) (a b : Nat) (v : Byte) (h : b ≠ a) :
    (m.write a v).read b = m.read b := by
  induction m with
  | nil => simp [Memory.write, Memory.read, Ne.symm h]
  | cons c m ih =>
    obtain ⟨k, w⟩ := c
    by_cases hlt : a < k
    · simp [Memory.write, hlt, Memory.read, Ne.symm h]
    · by_cases heq : a = k
      · subst heq
        simp [Memory.write, Memory.read, Ne.symm h]
      · simp [Memory.write, hlt, heq, Memory.read, ih]

theorem Memory.wf_tail {c : Host.Cell} {m : Memory} (h : Memory.wf (c :: m) = true) :
    Memory.wf m = true := by
  cases m with
  | nil => rfl
  | cons d m =>
    obtain ⟨a, v⟩ := c
    obtain ⟨b, w⟩ := d
    simp only [Memory.wf, Bool.and_eq_true] at h
    exact h.2

/-- The head of a written memory is the written index or the old head. -/
theorem Memory.wf_cons_write {k : Nat} {w : Byte} {m : Memory} {a : Nat} {v : Byte} (hk : k < a)
    (h : Memory.wf ((k, w) :: m) = true) (hm : Memory.wf (m.write a v) = true) :
    Memory.wf ((k, w) :: m.write a v) = true := by
  cases m with
  | nil => simp [Memory.write, Memory.wf, hk]
  | cons d m =>
    obtain ⟨b, x⟩ := d
    simp only [Memory.wf, Bool.and_eq_true, decide_eq_true_eq] at h
    simp only [Memory.write] at hm ⊢
    split <;> rename_i h1
    · rw [if_pos h1] at hm
      simp only [Memory.wf, Bool.and_eq_true, decide_eq_true_eq] at hm ⊢
      exact ⟨hk, hm⟩
    · rw [if_neg h1] at hm
      split <;> rename_i h2
      · rw [if_pos h2] at hm
        simp only [Memory.wf, Bool.and_eq_true, decide_eq_true_eq]
        exact ⟨hk, hm⟩
      · rw [if_neg h2] at hm
        simp only [Memory.wf, Bool.and_eq_true, decide_eq_true_eq]
        exact ⟨h.1, hm⟩

/-- Every write keeps the canonical form. -/
theorem Memory.write_wf (m : Memory) (a : Nat) (v : Byte) (h : m.wf = true) : (m.write a v).wf = true := by
  induction m with
  | nil => simp [Memory.write, Memory.wf]
  | cons c m ih =>
    obtain ⟨k, w⟩ := c
    by_cases hlt : a < k
    · simp only [Memory.write, if_pos hlt, Memory.wf, Bool.and_eq_true, decide_eq_true_eq]
      exact ⟨hlt, h⟩
    · by_cases heq : a = k
      · subst heq
        cases m with
        | nil => simp [Memory.write, Memory.wf]
        | cons d m =>
          obtain ⟨b, x⟩ := d
          simpa [Memory.write, Memory.wf] using h
      · have hk : k < a := by omega
        have := Memory.wf_cons_write hk h (ih (Memory.wf_tail h))
        simpa [Memory.write, hlt, heq] using this

/-- A write lists no index but its own beside those listed before. -/
theorem Memory.mem_write {m : Memory} {a : Nat} {v : Byte} {c : Host.Cell} (h : c ∈ m.write a v) :
    c = (a, v) ∨ c ∈ m := by
  induction m with
  | nil => simpa [Memory.write] using h
  | cons d m ih =>
    obtain ⟨k, w⟩ := d
    simp only [Memory.write] at h
    split at h
    · simpa using h
    · split at h
      · rcases List.mem_cons.mp h with h | h
        · exact .inl h
        · exact .inr (List.mem_cons_of_mem _ h)
      · rcases List.mem_cons.mp h with h | h
        · exact .inr (h ▸ List.mem_cons_self)
        · exact (ih h).imp_right (List.mem_cons_of_mem _)

/-- Everything `MemWrite` can answer. -/
theorem memWrite_cases (cfg : Config) (m : Memory) (a : Nat) (v : Byte) :
    (a < cfg.maxFrame ∧ memWrite cfg m a v = .ok (m.write a v))
    ∨ (cfg.maxFrame ≤ a ∧ memWrite cfg m a v = .error (.bufferOutOfRange a)) := by
  unfold memWrite
  split
  · exact .inl ⟨‹_›, rfl⟩
  · exact .inr ⟨by omega, rfl⟩

/-- A byte of the buffer is read exactly when it is in range and has been written. -/
theorem bufRead_ok_iff (cfg : Config) (m : Memory) (a : Nat) (b : Byte) :
    bufRead cfg m a = .ok b ↔ a < cfg.maxFrame ∧ m.read a = some b := by
  unfold bufRead
  by_cases h : a < cfg.maxFrame
  · cases hm : m.read a <;> simp [h]
  · simp [h]

@[simp] theorem memRead_zero (cfg : Config) (m : Memory) (a : Nat) : memRead cfg m a 0 = .ok [] := rfl

/-- What `MemRead` of one byte and `n` more answers. -/
theorem memRead_succ_ok_iff (cfg : Config) (m : Memory) (a n : Nat) (bs : List Byte) :
    memRead cfg m a (n + 1) = .ok bs
      ↔ ∃ b t, bs = b :: t ∧ bufRead cfg m a = .ok b ∧ memRead cfg m (a + 1) n = .ok t := by
  simp only [memRead]
  cases hb : bufRead cfg m a with
  | error f => simp
  | ok b =>
    cases ht : memRead cfg m (a + 1) n with
    | error f => simp
    | ok t =>
      constructor
      · intro h
        cases h
        exact ⟨b, t, rfl, rfl, rfl⟩
      · rintro ⟨b', t', rfl, h1, h2⟩
        cases h1
        cases h2
        rfl

/-- The bytes that `MemRead` answers, index by index. -/
theorem memRead_ok_iff (cfg : Config) (m : Memory) (a n : Nat) (bs : List Byte) :
    memRead cfg m a n = .ok bs
      ↔ bs.length = n ∧ ∀ i (h : i < bs.length), bufRead cfg m (a + i) = .ok bs[i] := by
  induction n generalizing a bs with
  | zero =>
    simp only [memRead_zero]
    constructor
    · intro h
      cases h
      simp
    · rintro ⟨h, -⟩
      rw [List.length_eq_zero_iff.mp h]
  | succ n ih =>
    rw [memRead_succ_ok_iff]
    constructor
    · rintro ⟨b, t, rfl, hb, ht⟩
      obtain ⟨hl, hr⟩ := (ih _ _).mp ht
      refine ⟨by simp [hl], fun i h => ?_⟩
      cases i with
      | zero => simpa using hb
      | succ i =>
        have := hr i (by simpa using h)
        rw [show a + (i + 1) = a + 1 + i by omega]
        simpa using this
    · rintro ⟨hl, hr⟩
      cases bs with
      | nil => simp at hl
      | cons b t =>
        have h0 : bufRead cfg m a = .ok b := hr 0 (Nat.succ_pos _)
        refine ⟨b, t, rfl, h0, (ih _ _).mpr ⟨by simpa using hl, fun i h => ?_⟩⟩
        have := hr (i + 1) (by simpa using h)
        rw [show a + (i + 1) = a + 1 + i by omega] at this
        simpa using this

/-- A read of a range has the length asked for. -/
theorem memRead_length {cfg : Config} {m : Memory} {a n : Nat} {bs : List Byte}
    (h : memRead cfg m a n = .ok bs) : bs.length = n := ((memRead_ok_iff cfg m a n bs).mp h).1

/-- A range whose bytes are all in range and written can be read. -/
theorem memRead_total (cfg : Config) (m : Memory) (a n : Nat)
    (h : ∀ i, i < n → a + i < cfg.maxFrame ∧ (m.read (a + i)).isSome = true) :
    ∃ bs, memRead cfg m a n = .ok bs := by
  induction n generalizing a with
  | zero => exact ⟨[], rfl⟩
  | succ n ih =>
    obtain ⟨b, hb⟩ := Option.isSome_iff_exists.mp (h 0 (by omega)).2
    obtain ⟨bs, hbs⟩ := ih (a + 1) fun i hi => by
      have := h (i + 1) (by omega)
      rwa [show a + (i + 1) = a + 1 + i by omega] at this
    exact ⟨b :: bs, (memRead_succ_ok_iff ..).mpr
      ⟨b, bs, rfl, (bufRead_ok_iff ..).mpr ⟨by simpa using (h 0 (by omega)).1, by simpa using hb⟩, hbs⟩⟩

/-- A range reads the same from two memories that agree on it. -/
theorem memRead_congr (cfg : Config) (m m' : Memory) (a n : Nat)
    (h : ∀ i, i < n → m'.read (a + i) = m.read (a + i)) : memRead cfg m' a n = memRead cfg m a n := by
  induction n generalizing a with
  | zero => rfl
  | succ n ih =>
    have h0 := h 0 (by omega)
    have hs := ih (a + 1) fun i hi => by
      have := h (i + 1) (by omega)
      rwa [show a + (i + 1) = a + 1 + i by omega] at this
    simp only [Nat.add_zero] at h0
    simp only [memRead, bufRead, h0, hs]

/-- Appending one byte at the end of a range that can be read. -/
theorem memRead_write_end {cfg : Config} {m : Memory} {n : Nat} {bs : List Byte} (v : Byte)
    (hn : n < cfg.maxFrame) (h : memRead cfg m 0 n = .ok bs) :
    memRead cfg (m.write n v) 0 (n + 1) = .ok (bs ++ [v]) := by
  obtain ⟨hl, hr⟩ := (memRead_ok_iff ..).mp h
  refine (memRead_ok_iff ..).mpr ⟨by simp [hl], fun i hi => ?_⟩
  simp only [Nat.zero_add] at hr ⊢
  rw [bufRead_ok_iff]
  by_cases hin : i < bs.length
  · have := (bufRead_ok_iff ..).mp (hr i hin)
    refine ⟨this.1, ?_⟩
    rw [Memory.read_write_other _ _ _ _ (by omega), this.2]
    simp [List.getElem_append_left, hin]
  · have hlen : i = n := by
      simp at hi
      omega
    subst hlen
    refine ⟨hn, ?_⟩
    simp [List.getElem_append_right, hl]

/-- The memory at reset is in its canonical form. -/
theorem reset_buf_wf : State.reset.buf.wf = true := rfl

end Sys2Proof.Machine
end

