-- ==== Sys2Proof/Laws/State.lean ====
section
/-! SUPPORT. The fields of each named state update, one lemma a field, all by rfl. -/

namespace Sys2Proof.Machine

/-! ### quiet -/

@[simp] theorem quiet_crc (s : State) : s.quiet.crc = s.crc := rfl
@[simp] theorem quiet_encState (s : State) : s.quiet.encState = s.encState := rfl
@[simp] theorem quiet_encCrc (s : State) : s.quiet.encCrc = s.encCrc := rfl
@[simp] theorem quiet_rxState (s : State) : s.quiet.rxState = s.rxState := rfl
@[simp] theorem quiet_buf (s : State) : s.quiet.buf = s.buf := rfl
@[simp] theorem quiet_len (s : State) : s.quiet.len = s.len := rfl
@[simp] theorem quiet_out (s : State) : s.quiet.out = Output.silent := rfl
@[simp] theorem quiet_input (s : State) : s.quiet.input = s.input := rfl

/-! ### emitting -/

@[simp] theorem emitting_crc (s : State) (bs : List Byte) : (s.emitting bs).crc = s.crc := rfl
@[simp] theorem emitting_encState (s : State) (bs : List Byte) : (s.emitting bs).encState = s.encState := rfl
@[simp] theorem emitting_encCrc (s : State) (bs : List Byte) : (s.emitting bs).encCrc = s.encCrc := rfl
@[simp] theorem emitting_rxState (s : State) (bs : List Byte) : (s.emitting bs).rxState = s.rxState := rfl
@[simp] theorem emitting_buf (s : State) (bs : List Byte) : (s.emitting bs).buf = s.buf := rfl
@[simp] theorem emitting_len (s : State) (bs : List Byte) : (s.emitting bs).len = s.len := rfl
@[simp] theorem emitting_out (s : State) (bs : List Byte) : (s.emitting bs).out = { Output.silent with outBytes := bs } := rfl
@[simp] theorem emitting_input (s : State) (bs : List Byte) : (s.emitting bs).input = s.input := rfl

/-! ### withInput -/

@[simp] theorem withInput_crc (s : State) (rest : List Input) : (s.withInput rest).crc = s.crc := rfl
@[simp] theorem withInput_encState (s : State) (rest : List Input) : (s.withInput rest).encState = s.encState := rfl
@[simp] theorem withInput_encCrc (s : State) (rest : List Input) : (s.withInput rest).encCrc = s.encCrc := rfl
@[simp] theorem withInput_rxState (s : State) (rest : List Input) : (s.withInput rest).rxState = s.rxState := rfl
@[simp] theorem withInput_buf (s : State) (rest : List Input) : (s.withInput rest).buf = s.buf := rfl
@[simp] theorem withInput_len (s : State) (rest : List Input) : (s.withInput rest).len = s.len := rfl
@[simp] theorem withInput_out (s : State) (rest : List Input) : (s.withInput rest).out = s.out := rfl
@[simp] theorem withInput_input (s : State) (rest : List Input) : (s.withInput rest).input = rest := rfl

/-! ### idle -/

@[simp] theorem idle_crc (s : State) : s.idle.crc = s.crc := rfl
@[simp] theorem idle_encState (s : State) : s.idle.encState = s.encState := rfl
@[simp] theorem idle_encCrc (s : State) : s.idle.encCrc = s.encCrc := rfl
@[simp] theorem idle_rxState (s : State) : s.idle.rxState = s.rxState := rfl
@[simp] theorem idle_buf (s : State) : s.idle.buf = s.buf := rfl
@[simp] theorem idle_len (s : State) : s.idle.len = s.len := rfl
@[simp] theorem idle_out (s : State) : s.idle.out = Output.silent := rfl
@[simp] theorem idle_input (s : State) : s.idle.input = s.input := rfl

/-! ### raise -/

@[simp] theorem raise_crc (c : Condition) (s : State) : (raise c s).crc = s.crc := rfl
@[simp] theorem raise_encState (c : Condition) (s : State) : (raise c s).encState = s.encState := rfl
@[simp] theorem raise_encCrc (c : Condition) (s : State) : (raise c s).encCrc = s.encCrc := rfl
@[simp] theorem raise_rxState (c : Condition) (s : State) : (raise c s).rxState = .reset := rfl
@[simp] theorem raise_buf (c : Condition) (s : State) : (raise c s).buf = s.buf := rfl
@[simp] theorem raise_len (c : Condition) (s : State) : (raise c s).len = 0 := rfl
@[simp] theorem raise_out (c : Condition) (s : State) : (raise c s).out = { Output.silent with event := .condition c } := rfl
@[simp] theorem raise_input (c : Condition) (s : State) : (raise c s).input = s.input := rfl

/-! ### deliver -/

@[simp] theorem deliver_crc (p : List Byte) (s : State) : (deliver p s).crc = s.crc := rfl
@[simp] theorem deliver_encState (p : List Byte) (s : State) : (deliver p s).encState = s.encState := rfl
@[simp] theorem deliver_encCrc (p : List Byte) (s : State) : (deliver p s).encCrc = s.encCrc := rfl
@[simp] theorem deliver_rxState (p : List Byte) (s : State) : (deliver p s).rxState = .reset := rfl
@[simp] theorem deliver_buf (p : List Byte) (s : State) : (deliver p s).buf = s.buf := rfl
@[simp] theorem deliver_len (p : List Byte) (s : State) : (deliver p s).len = 0 := rfl
@[simp] theorem deliver_out (p : List Byte) (s : State) : (deliver p s).out = { Output.silent with event := .chunk p } := rfl
@[simp] theorem deliver_input (p : List Byte) (s : State) : (deliver p s).input = s.input := rfl

/-! ### resetCrc -/

@[simp] theorem resetCrc_crc (cfg : Config) (s : State) : (resetCrc cfg s).crc = cfg.crc.init := rfl
@[simp] theorem resetCrc_encState (cfg : Config) (s : State) : (resetCrc cfg s).encState = s.encState := rfl
@[simp] theorem resetCrc_encCrc (cfg : Config) (s : State) : (resetCrc cfg s).encCrc = s.encCrc := rfl
@[simp] theorem resetCrc_rxState (cfg : Config) (s : State) : (resetCrc cfg s).rxState = s.rxState := rfl
@[simp] theorem resetCrc_buf (cfg : Config) (s : State) : (resetCrc cfg s).buf = s.buf := rfl
@[simp] theorem resetCrc_len (cfg : Config) (s : State) : (resetCrc cfg s).len = s.len := rfl
@[simp] theorem resetCrc_out (cfg : Config) (s : State) : (resetCrc cfg s).out = s.out := rfl
@[simp] theorem resetCrc_input (cfg : Config) (s : State) : (resetCrc cfg s).input = s.input := rfl

/-! ### resetEnc -/

@[simp] theorem resetEnc_crc (cfg : Config) (s : State) : (resetEnc cfg s).crc = s.crc := rfl
@[simp] theorem resetEnc_encState (cfg : Config) (s : State) : (resetEnc cfg s).encState = .encIdle := rfl
@[simp] theorem resetEnc_encCrc (cfg : Config) (s : State) : (resetEnc cfg s).encCrc = cfg.crc.init := rfl
@[simp] theorem resetEnc_rxState (cfg : Config) (s : State) : (resetEnc cfg s).rxState = s.rxState := rfl
@[simp] theorem resetEnc_buf (cfg : Config) (s : State) : (resetEnc cfg s).buf = s.buf := rfl
@[simp] theorem resetEnc_len (cfg : Config) (s : State) : (resetEnc cfg s).len = s.len := rfl
@[simp] theorem resetEnc_out (cfg : Config) (s : State) : (resetEnc cfg s).out = s.out := rfl
@[simp] theorem resetEnc_input (cfg : Config) (s : State) : (resetEnc cfg s).input = s.input := rfl

/-! ### resetDec -/

@[simp] theorem resetDec_crc (s : State) : (resetDec s).crc = s.crc := rfl
@[simp] theorem resetDec_encState (s : State) : (resetDec s).encState = s.encState := rfl
@[simp] theorem resetDec_encCrc (s : State) : (resetDec s).encCrc = s.encCrc := rfl
@[simp] theorem resetDec_rxState (s : State) : (resetDec s).rxState = .reset := rfl
@[simp] theorem resetDec_buf (s : State) : (resetDec s).buf = s.buf := rfl
@[simp] theorem resetDec_len (s : State) : (resetDec s).len = 0 := rfl
@[simp] theorem resetDec_out (s : State) : (resetDec s).out = s.out := rfl
@[simp] theorem resetDec_input (s : State) : (resetDec s).input = s.input := rfl

/-! ### A silent output -/

@[simp] theorem silent_crcOut : Output.silent.crcOut = none := rfl
@[simp] theorem silent_outBytes : Output.silent.outBytes = [] := rfl
@[simp] theorem silent_event : Output.silent.event = Event.none := rfl

end Sys2Proof.Machine
end

