-- ==== Sys2Proof/Laws/Ops.lean ====
section
/-! SUPPORT. What each shared operation can do, said once, and what the arms of `exec` call. -/

namespace Sys2Proof.Machine

/-! ## The arms of `exec` on this hardware -/

theorem exec_delim (s : State) : exec .delim s = decRxWith Config.datvideo 0x7E#8 s := rfl
theorem exec_esc (s : State) : exec .esc s = decRxWith Config.datvideo 0x7D#8 s := rfl
theorem exec_data (b : Byte) (s : State) : exec (.data b) s = decRxWith Config.datvideo b s := rfl
theorem exec_escDelim (s : State) : exec .escDelim s = rxSymbolWith Config.datvideo 0x7E#8 s := rfl
theorem exec_escEsc (s : State) : exec .escEsc s = rxSymbolWith Config.datvideo 0x7D#8 s := rfl
theorem exec_escOther (x : Byte) (s : State) : exec (.escOther x) s = rxSymbolWith Config.datvideo x s := rfl
theorem exec_crcByte (d : Byte) (s : State) : exec (.crcByte d) s = crcByteWith Config.datvideo d s := rfl
theorem exec_crcBit (d : Bool) (s : State) : exec (.crcBit d) s = crcBitWith Config.datvideo d s := rfl
theorem exec_encSof (s : State) : exec .encSof s = encSofWith Config.datvideo s := rfl
theorem exec_encData (d : Byte) (s : State) : exec (.encData d) s = encDataWith Config.datvideo d s := rfl
theorem exec_encEof (s : State) : exec .encEof s = encEofWith Config.datvideo s := rfl
theorem exec_decRx (d : Byte) (s : State) : exec (.decRx d) s = decRxWith Config.datvideo d s := rfl

/-! ## The appends and the close -/

/-- Everything an append with its size test can answer. -/
theorem rxAppendOrLong_cases (cfg : Config) (d : Byte) (s : State) :
    (cfg.maxFrame < s.len + 1 ∧ rxAppendOrLong cfg d s = .next (raise .longFrame s))
    ∨ (s.len + 1 ≤ cfg.maxFrame ∧ rxAppendOrLong cfg d s
        = .next { s.quiet with buf := s.buf.write s.len d, len := s.len + 1, rxState := .inFrame }) := by
  unfold rxAppendOrLong
  split
  · exact .inl ⟨by omega, rfl⟩
  · refine .inr ⟨by omega, ?_⟩
    have : s.len < cfg.maxFrame := by omega
    simp [rxAppend, appendIndex, memWrite, this]

/-- Everything a close can answer. -/
theorem rxClose_cases (cfg : Config) (s : State) :
    (s.len < 2 ∧ rxClose cfg s = .next (raise .shortFrame s))
    ∨ (2 ≤ s.len ∧ ∃ f, memRead cfg s.buf 0 s.len = .error f ∧ rxClose cfg s = .fault f)
    ∨ (2 ≤ s.len ∧ ∃ body, memRead cfg s.buf 0 s.len = .ok body
        ∧ bodyChecksum body = crc16 cfg.crc (bodyPayload body)
        ∧ rxClose cfg s = .next (deliver (bodyPayload body) s))
    ∨ (2 ≤ s.len ∧ ∃ body, memRead cfg s.buf 0 s.len = .ok body
        ∧ bodyChecksum body ≠ crc16 cfg.crc (bodyPayload body)
        ∧ rxClose cfg s = .next (raise .crcMismatch s)) := by
  unfold rxClose
  by_cases h : s.len < 2
  · exact .inl ⟨h, by simp [h]⟩
  · have h2 : 2 ≤ s.len := by omega
    cases hm : memRead cfg s.buf 0 s.len with
    | error f => exact .inr (.inl ⟨h2, f, rfl, by simp [h]⟩)
    | ok body =>
      by_cases hc : bodyChecksum body = crc16 cfg.crc (bodyPayload body)
      · exact .inr (.inr (.inl ⟨h2, body, rfl, hc, by simp [h, hc]⟩))
      · exact .inr (.inr (.inr ⟨h2, body, rfl, hc, by simp [h, hc]⟩))

/-! ## The decoder's one data operation -/

/-- Everything `DEC.RX d` can do when it answers a next state. -/
theorem decRxWith_next_cases {cfg : Config} {d : Byte} {s t : State} (h : decRxWith cfg d s = .next t) :
    (s.rxState = .reset ∧ d ≠ cfg.delim ∧ t = s.quiet)
    ∨ (s.rxState = .reset ∧ d = cfg.delim ∧ t = { s.quiet with len := 0, rxState := .inFrame })
    ∨ (s.rxState = .inFrame ∧ d = cfg.delim ∧ s.len < 2 ∧ t = raise .shortFrame s)
    ∨ (s.rxState = .inFrame ∧ d = cfg.delim ∧ 2 ≤ s.len ∧ ∃ body, memRead cfg s.buf 0 s.len = .ok body
        ∧ ((bodyChecksum body = crc16 cfg.crc (bodyPayload body) ∧ t = deliver (bodyPayload body) s)
          ∨ (bodyChecksum body ≠ crc16 cfg.crc (bodyPayload body) ∧ t = raise .crcMismatch s)))
    ∨ (s.rxState = .inFrame ∧ d ≠ cfg.delim ∧ d = cfg.esc ∧ t = { s.quiet with rxState := .inEscape })
    ∨ (((s.rxState = .inFrame ∧ d ≠ cfg.delim ∧ d ≠ cfg.esc)
          ∨ (s.rxState = .inEscape ∧ (d = cfg.delim ∨ d = cfg.esc)))
        ∧ ((cfg.maxFrame < s.len + 1 ∧ t = raise .longFrame s)
          ∨ (s.len + 1 ≤ cfg.maxFrame
            ∧ t = { s.quiet with buf := s.buf.write s.len d, len := s.len + 1, rxState := .inFrame })))
    ∨ (s.rxState = .inEscape ∧ d ≠ cfg.delim ∧ d ≠ cfg.esc ∧ t = raise .invalidEscape s) := by
  have happ : rxAppendOrLong cfg d s = .next t →
      ((cfg.maxFrame < s.len + 1 ∧ t = raise .longFrame s)
        ∨ (s.len + 1 ≤ cfg.maxFrame
          ∧ t = { s.quiet with buf := s.buf.write s.len d, len := s.len + 1, rxState := .inFrame })) := by
    intro ha
    rcases rxAppendOrLong_cases cfg d s with ⟨hl, he⟩ | ⟨hl, he⟩
    · rw [he] at ha
      exact .inl ⟨hl, (Host.Outcome.next.inj ha).symm⟩
    · rw [he] at ha
      exact .inr ⟨hl, (Host.Outcome.next.inj ha).symm⟩
  unfold decRxWith at h
  cases hs : s.rxState <;> simp only [hs] at h
  · split at h
    · exact .inr (.inl ⟨rfl, ‹_›, (Host.Outcome.next.inj h).symm⟩)
    · exact .inl ⟨rfl, ‹_›, (Host.Outcome.next.inj h).symm⟩
  · split at h <;> rename_i h1
    · rcases rxClose_cases cfg s with
        ⟨hl, he⟩ | ⟨_, f, _, he⟩ | ⟨hl, body, hb, hc, he⟩ | ⟨hl, body, hb, hc, he⟩ <;> rw [he] at h
      · exact .inr (.inr (.inl ⟨rfl, h1, hl, (Host.Outcome.next.inj h).symm⟩))
      · cases h
      · exact .inr (.inr (.inr (.inl
          ⟨rfl, h1, hl, body, hb, .inl ⟨hc, (Host.Outcome.next.inj h).symm⟩⟩)))
      · exact .inr (.inr (.inr (.inl
          ⟨rfl, h1, hl, body, hb, .inr ⟨hc, (Host.Outcome.next.inj h).symm⟩⟩)))
    · split at h <;> rename_i h2
      · exact .inr (.inr (.inr (.inr (.inl ⟨rfl, h1, h2, (Host.Outcome.next.inj h).symm⟩))))
      · exact .inr (.inr (.inr (.inr (.inr (.inl ⟨.inl ⟨rfl, h1, h2⟩, happ h⟩)))))
  · split at h <;> rename_i h1
    · exact .inr (.inr (.inr (.inr (.inr (.inl ⟨.inr ⟨rfl, h1⟩, happ h⟩)))))
    · exact .inr (.inr (.inr (.inr (.inr (.inr
        ⟨rfl, fun e => h1 (.inl e), fun e => h1 (.inr e), (Host.Outcome.next.inj h).symm⟩)))))

/-- `DEC.RX` never refuses (R150). -/
theorem decRxWith_not_refused (cfg : Config) (d : Byte) (s : State) (r : Refusal) :
    decRxWith cfg d s ≠ .refused r := by
  have happ : rxAppendOrLong cfg d s ≠ .refused r := by
    rcases rxAppendOrLong_cases cfg d s with ⟨_, he⟩ | ⟨_, he⟩ <;> simp [he]
  have hclose : rxClose cfg s ≠ .refused r := by
    rcases rxClose_cases cfg s with ⟨_, he⟩ | ⟨_, f, _, he⟩ | ⟨_, _, _, _, he⟩ | ⟨_, _, _, _, he⟩ <;> simp [he]
  unfold decRxWith
  cases s.rxState <;> simp only
  · split <;> simp [rxOpen, rxHunt]
  · split
    · exact hclose
    · split
      · simp [rxEscape]
      · exact happ
  · split
    · exact happ
    · simp

/-- What a two-byte symbol answers when both its bytes are received. -/
theorem rxSymbolWith_next {cfg : Config} {x : Byte} {s t u : State} (h1 : decRxWith cfg cfg.esc s = .next t)
    (h2 : decRxWith cfg x t = .next u) :
    rxSymbolWith cfg x s
      = .next { u with out := { u.out with event := Event.orElse t.out.event u.out.event } } := by
  simp [rxSymbolWith, andThen, h1, h2]

end Sys2Proof.Machine
end

