-- ==== Sys2Proof/Laws/PerInstr.lean ====
section
/-! SUPPORT. Statements made per instruction: the word of every well-formed instruction matches the
instruction's own row of the opcode table (30_encoding.md section 4, R87). -/

namespace Sys2Proof.Laws

/-- The encoded instruction matches its row. -/
def MatchesRow.Statement (i : Instr) : Prop :=
  i.wf Config.datvideo = true → (opcodeRow i).matchesWord (encode i) = true

theorem MatchesRow.delim : Statement .delim := fun _ => by decide
theorem MatchesRow.esc : Statement .esc := fun _ => by decide
theorem MatchesRow.data (b : Byte) : Statement (.data b) := fun _ => by
  simp [opcodeRow, OpcodeRow.matchesWord, encode, encodeWith, InputWord.format, InputWord.bits]
theorem MatchesRow.escDelim : Statement .escDelim := fun _ => by decide
theorem MatchesRow.escEsc : Statement .escEsc := fun _ => by decide
theorem MatchesRow.escOther (x : Byte) : Statement (.escOther x) := by
  revert x; unfold Statement; decide +kernel
theorem MatchesRow.crcInit : Statement .crcInit := fun _ => by decide
theorem MatchesRow.crcByte (d : Byte) : Statement (.crcByte d) := by
  revert d; unfold Statement; decide +kernel
theorem MatchesRow.crcBit (d : Bool) : Statement (.crcBit d) := by
  revert d; unfold Statement; decide +kernel
theorem MatchesRow.crcGet : Statement .crcGet := fun _ => by decide
theorem MatchesRow.encSof : Statement .encSof := fun _ => by decide
theorem MatchesRow.encData (d : Byte) : Statement (.encData d) := by
  revert d; unfold Statement; decide +kernel
theorem MatchesRow.encEof : Statement .encEof := fun _ => by decide
theorem MatchesRow.decRx (d : Byte) : Statement (.decRx d) := by
  revert d; unfold Statement; decide +kernel
theorem MatchesRow.decEos : Statement .decEos := fun _ => by decide
theorem MatchesRow.reset : Statement .reset := fun _ => by decide

end Sys2Proof.Laws
end

