-- ==== Sys2Proof/Laws/Runs.lean ====
section
/-! SUPPORT. Runs of tokens: one step at a time. -/

namespace Sys2Proof.Machine

@[simp] theorem runWith_nil (ex : Instr → State → Host.Outcome State Fault Refusal) (s : State) :
    runWith ex [] s = .next (s, []) := rfl

/-- A run of one token and more that ends in a next state. -/
theorem runWith_cons_next_iff (ex : Instr → State → Host.Outcome State Fault Refusal) (i : Instr)
    (is : List Instr) (s u : State) (tr : List TraceEntry) :
    runWith ex (i :: is) s = .next (u, tr)
      ↔ ∃ t tr', ex i s = .next t ∧ runWith ex is t = .next (u, tr') ∧ tr = ⟨i, t.out⟩ :: tr' := by
  simp only [runWith]
  cases h1 : ex i s with
  | fault f => simp
  | refused r => simp
  | next t =>
    simp only [Host.Outcome.next.injEq]
    cases h2 : runWith ex is t with
    | fault f => simp [h2]
    | refused r => simp [h2]
    | next v =>
      obtain ⟨u', tr'⟩ := v
      constructor
      · intro h
        cases h
        exact ⟨t, tr', rfl, h2, rfl⟩
      · rintro ⟨t', tr'', rfl, h3, rfl⟩
        rw [h2] at h3
        cases h3
        rfl

@[simp] theorem eventsOf_nil : eventsOf [] = [] := rfl

/-- The events of a trace of one step and more. -/
theorem eventsOf_cons (e : TraceEntry) (tr : List TraceEntry) :
    eventsOf (e :: tr) = (if e.out.event.isSome then [e.out.event] else []) ++ eventsOf tr := by
  simp only [eventsOf, List.map_cons, List.filter_cons]
  split <;> simp

@[simp] theorem wireBytes_nil : wireBytes [] = [] := rfl

theorem wireBytes_cons (e : TraceEntry) (tr : List TraceEntry) :
    wireBytes (e :: tr) = e.out.outBytes ++ wireBytes tr := by simp [wireBytes]

/-- A run of two programs one after the other that ends in a next state. -/
theorem runWith_append_next_iff (ex : Instr → State → Host.Outcome State Fault Refusal) (is js : List Instr)
    (s u : State) (tr : List TraceEntry) :
    runWith ex (is ++ js) s = .next (u, tr)
      ↔ ∃ t tr1 tr2, runWith ex is s = .next (t, tr1) ∧ runWith ex js t = .next (u, tr2)
          ∧ tr = tr1 ++ tr2 := by
  induction is generalizing s tr with
  | nil =>
    refine ⟨fun h => ⟨s, [], tr, rfl, h, rfl⟩, ?_⟩
    rintro ⟨t, tr1, tr2, h1, h2, rfl⟩
    obtain ⟨rfl, rfl⟩ := Prod.mk.inj (Host.Outcome.next.inj h1)
    exact h2
  | cons i is ih =>
    simp only [List.cons_append, runWith_cons_next_iff, ih]
    constructor
    · rintro ⟨t, tr', h1, ⟨v, tr1, tr2, h2, h3, rfl⟩, rfl⟩
      exact ⟨v, _, tr2, ⟨t, tr1, h1, h2, rfl⟩, h3, rfl⟩
    · rintro ⟨v, _, tr2, ⟨t, tr1, h1, h2, rfl⟩, h3, rfl⟩
      exact ⟨t, _, h1, ⟨v, tr1, tr2, h2, h3, rfl⟩, rfl⟩

/-- The events of two traces one after the other. -/
theorem eventsOf_append (tr1 tr2 : List TraceEntry) :
    eventsOf (tr1 ++ tr2) = eventsOf tr1 ++ eventsOf tr2 := by simp [eventsOf]

/-! ## The refusal of an ill-formed configuration (R11) -/

@[simp] theorem whenWellFormed_of_wf {α : Type} {cfg : Config} (h : cfg.wf = true)
    (o : Host.Outcome α Fault Refusal) : whenWellFormed cfg o = o := if_pos h

@[simp] theorem whenWellFormed_of_ill {α : Type} {cfg : Config} (h : cfg.wf = false)
    (o : Host.Outcome α Fault Refusal) : whenWellFormed cfg o = .refused .illFormedConfig := by
  simp [whenWellFormed, h]

/-- Everything `encode` can answer: the frame's bytes exactly under a well-formed configuration. -/
theorem encodeFrame_eq_next_iff (cfg : Config) (p f : List Byte) :
    encodeFrame cfg p = .next f ↔ cfg.wf = true ∧ f = frameBytes cfg p := by
  cases h : cfg.wf <;> simp [encodeFrame, h, eq_comm]

/-- Everything the driver's chunking can answer. -/
theorem driverChunks_eq_next_iff (cfg : Config) (s : List Byte) (cs : List (List Byte)) :
    driverChunks cfg s = .next cs ↔ cfg.wf = true ∧ cs = chunksOf cfg.chunkSize s.length s := by
  cases h : cfg.wf <;> simp [driverChunks, h, eq_comm]

/-- Everything `encode_stream` can answer. -/
theorem encodeStream_eq_next_iff (cfg : Config) (s w : List Byte) :
    encodeStream cfg s = .next w
      ↔ cfg.wf = true ∧ w = (chunksOf cfg.chunkSize s.length s).flatMap (frameBytes cfg) := by
  cases h : cfg.wf <;> simp [encodeStream, driverChunks, h, eq_comm]

end Sys2Proof.Machine
end

