-- ==== Sys2Proof/Laws/Words.lean ====
section
/-! SUPPORT. The fields of the words that are put together from parts: command words, symbols, checksums. -/

namespace Sys2Proof

theorem extract_high_append {n m : Nat} (a : BitVec n) (b : BitVec m) :
    (a ++ b : BitVec (n + m)).extractLsb' m n = a := by
  ext i hi
  simp [BitVec.getElem_extractLsb', BitVec.getLsbD_append, hi]

theorem extract_low_append {n m : Nat} (a : BitVec n) (b : BitVec m) :
    (a ++ b : BitVec (n + m)).extractLsb' 0 m = b := by
  ext i hi
  simp [BitVec.getElem_extractLsb', BitVec.getLsbD_append, hi]

theorem append_extract {n m : Nat} (w : BitVec (n + m)) :
    (w.extractLsb' m n ++ w.extractLsb' 0 m : BitVec (n + m)) = w := by
  ext i hi
  rw [BitVec.getElem_append]
  split
  · simp [BitVec.getLsbD_eq_getElem hi]
  · simp only [BitVec.getElem_extractLsb']
    rw [show m + (i - m) = i by omega, BitVec.getLsbD_eq_getElem hi]

@[simp] theorem commandOp_commandWord (op : BitVec 4) (arg : Byte) : commandOp (commandWord op arg) = op :=
  extract_high_append op arg

@[simp] theorem commandArg_commandWord (op : BitVec 4) (arg : Byte) :
    commandArg (commandWord op arg) = arg := extract_low_append op arg

@[simp] theorem commandWord_op_arg (k : BitVec 12) : commandWord (commandOp k) (commandArg k) = k :=
  append_extract (n := 4) (m := 8) k

@[simp] theorem symbolFirst_symbolWord (a b : Byte) : symbolFirst (symbolWord a b) = a :=
  extract_high_append a b

@[simp] theorem symbolSecond_symbolWord (a b : Byte) : symbolSecond (symbolWord a b) = b :=
  extract_low_append a b

@[simp] theorem symbolWord_first_second (w : BitVec 16) : symbolWord (symbolFirst w) (symbolSecond w) = w :=
  append_extract (n := 8) (m := 8) w

namespace Machine

@[simp] theorem hi8_bigEndian (h l : Byte) : hi8 (bigEndian h l) = h := extract_high_append h l

@[simp] theorem lo8_bigEndian (h l : Byte) : lo8 (bigEndian h l) = l := extract_low_append h l

@[simp] theorem bigEndian_hi8_lo8 (w : Word16) : bigEndian (hi8 w) (lo8 w) = w :=
  append_extract (n := 8) (m := 8) w

@[simp] theorem hi8_append (h l : Byte) : hi8 (h ++ l) = h := hi8_bigEndian h l

@[simp] theorem lo8_append (h l : Byte) : lo8 (h ++ l) = l := lo8_bigEndian h l

theorem bigEndian_eq_append (h l : Byte) : bigEndian h l = h ++ l := rfl

@[simp] theorem bodyPayload_append (p : List Byte) (h l : Byte) : bodyPayload (p ++ [h, l]) = p := by
  simp [bodyPayload]

@[simp] theorem bodyChecksum_append (p : List Byte) (h l : Byte) :
    bodyChecksum (p ++ [h, l]) = bigEndian h l := by
  simp [bodyChecksum]

end Machine

end Sys2Proof
end

