-- ==== Sys2Proof/Tests/Slice0.lean ====
section
/-! SUPPORT. Tests of the model, each with its expected result from the spec, and for every statement that has
hypotheses a state and operands that meet them. -/

namespace Sys2Proof.Tests

open Sys2Proof Sys2Proof.Machine

/-! ## Helpers -/

/-- The bytes `bs` at the indices from `a` on. -/
def cellsFrom : Nat → List Byte → Memory
  | _, [] => []
  | a, b :: bs => (a, b) :: cellsFrom (a + 1) bs

/-- The decoder in a receive state with `bs` collected, all else as after reset. -/
def holding (r : RxState) (bs : List Byte) : State :=
  { State.reset with rxState := r, buf := cellsFrom 0 bs, len := bs.length }

/-- The encoder in a frame, its register at `c`, all else as after reset. -/
def busyAt (c : Word16) : State := { State.reset with encState := .encBusy, encCrc := c }

/-- The generator's register at `c`, all else as after reset. -/
def crcAt (c : Word16) : State := { State.reset with crc := c }

/-- The next state of an outcome, if it is one. -/
def stateOf : Host.Outcome State Fault Refusal → Option State
  | .next s => some s
  | .fault _ => none
  | .refused _ => none

/-- The refusal of an outcome, if it is one. -/
def refusalIn {α : Type} : Host.Outcome α Fault Refusal → Option Refusal
  | .next _ => none
  | .fault _ => none
  | .refused r => some r

/-- The value of an outcome, if it has one. -/
def valueOf {α : Type} : Host.Outcome α Fault Refusal → Option α
  | .next a => some a
  | .fault _ => none
  | .refused _ => none

/-- The register of the generator after an outcome. -/
def crcOf (o : Host.Outcome State Fault Refusal) : Option Word16 := (stateOf o).map (·.crc)

/-- The encoder's output, register and state after an outcome. -/
def encOf (o : Host.Outcome State Fault Refusal) : Option (List Byte × Word16 × EncState) :=
  (stateOf o).map fun s => (s.out.outBytes, s.encCrc, s.encState)

/-- The decoder's event, state and length after an outcome. -/
def decOf (o : Host.Outcome State Fault Refusal) : Option (Event × RxState × Nat) :=
  (stateOf o).map fun s => (s.out.event, s.rxState, s.len)

/-- The configuration of the vectors that exercise the bound (95_test_vectors.md). -/
def small : Config := { Config.datvideo with maxFrame := 4 }

theorem cellsFrom_wf (a : Nat) (bs : List Byte) : (cellsFrom a bs).wf = true := by
  induction bs generalizing a with
  | nil => rfl
  | cons b bs ih =>
    cases bs with
    | nil => rfl
    | cons c bs =>
      have h := ih (a + 1)
      simp only [cellsFrom] at h ⊢
      simp [Memory.wf, h]

theorem cellsFrom_bound (a : Nat) (bs : List Byte) : ∀ c ∈ cellsFrom a bs, c.1 < a + bs.length := by
  induction bs generalizing a with
  | nil => simp [cellsFrom]
  | cons b bs ih =>
    intro c hc
    simp only [cellsFrom, List.mem_cons] at hc
    rcases hc with rfl | hc
    · simp
    · have := ih (a + 1) c hc
      simp only [List.length_cons]
      omega

theorem cellsFrom_read (a : Nat) (bs : List Byte) (i : Nat) (h : i < bs.length) :
    ((cellsFrom a bs).read (a + i)).isSome = true := by
  induction bs generalizing a i with
  | nil => simp at h
  | cons b bs ih =>
    cases i with
    | zero => simp [cellsFrom, Memory.read]
    | succ i =>
      have := ih (a + 1) i (by simpa using h)
      rw [show a + 1 + i = a + (i + 1) by omega] at this
      have hne : a ≠ a + (i + 1) := by omega
      simp only [cellsFrom, Memory.read, if_neg hne]
      exact this

/-- A decoder that holds collected bytes, in a frame, satisfies the invariant up to a full buffer. -/
theorem holding_good (r : RxState) (bs : List Byte) (hr : r ≠ .reset) (h : bs.length ≤ 1048576) :
    GoodState Config.datvideo (holding r bs) where
  lenBound := h
  emptyInReset := fun h' => absurd h' hr
  bufWf := cellsFrom_wf 0 bs
  bufInRange := by
    intro c hc
    have h1 := cellsFrom_bound 0 bs c hc
    have h2 : Config.datvideo.maxFrame = 1048576 := rfl
    omega
  collected := by
    intro a ha
    have := cellsFrom_read 0 bs a ha
    rwa [Nat.zero_add] at this

/-! ## Decoding: the word of every row, from 30_encoding.md R71, R73, R87 and the programs of
95_test_vectors.md -/

theorem test_decode_delim : decode (.wire 0b01111110#8) = .ok .delim := by decide
theorem test_decode_esc : decode (.wire 0b01111101#8) = .ok .esc := by decide
theorem test_decode_data : decode (.wire 0x7F#8) = .ok (.data 0x7F#8) := by decide
theorem test_decode_escDelim : decode (.symbol 0x7D7E#16) = .ok .escDelim := by decide
theorem test_decode_escEsc : decode (.symbol 0x7D7D#16) = .ok .escEsc := by decide
theorem test_decode_escOther : decode (.symbol 0x7D42#16) = .ok (.escOther 0x42#8) := by decide
theorem test_decode_crcInit : decode (.command 0x000#12) = .ok .crcInit := by decide
theorem test_decode_crcByte : decode (.command 0x17D#12) = .ok (.crcByte 0x7D#8) := by decide
theorem test_decode_crcBit : decode (.command 0x201#12) = .ok (.crcBit true) := by decide
theorem test_decode_crcGet : decode (.command 0x300#12) = .ok .crcGet := by decide
theorem test_decode_encSof : decode (.command 0x400#12) = .ok .encSof := by decide
theorem test_decode_encData : decode (.command 0x57E#12) = .ok (.encData 0x7E#8) := by decide
theorem test_decode_encEof : decode (.command 0x600#12) = .ok .encEof := by decide
theorem test_decode_decRx : decode (.command 0x8B4#12) = .ok (.decRx 0xB4#8) := by decide
theorem test_decode_decEos : decode (.command 0x900#12) = .ok .decEos := by decide
theorem test_decode_reset : decode (.command 0xF00#12) = .ok .reset := by decide

/-- R90. -/
theorem test_decode_reserved : decode (.command 0x7FF#12) = .error (.reservedOpcode 0x7#4) := by decide

/-- R73: only `ESC` announces a two-byte symbol. -/
theorem test_decode_no_symbol : decode (.symbol 0x417E#16) = .error (.notASymbol 0x417E#16) := by decide

/-- R86: the unused bits of `arg` are ignored. -/
theorem test_decode_unused_bits :
    decode (.command 0x2FE#12) = .ok (.crcBit false) ∧ decode (.command 0x4FF#12) = .ok .encSof := by decide

theorem test_table_words :
    decodeTableWord 8 0x7E = some .delim ∧ decodeTableWord 8 0x00 = some (.data 0x00#8)
    ∧ decodeTableWord 16 0x7D7E = some .escDelim ∧ decodeTableWord 16 0x7D00 = some (.escOther 0x00#8)
    ∧ decodeTableWord 16 0x000 = some .crcInit ∧ decodeTableWord 16 0xF00 = some .reset
    ∧ decodeTableWord 16 0x700 = none := by decide

theorem test_table_has_its_rows : opcodeTable.length = 16 := by decide

/-! ## Well-formedness: each check refuses an ill-formed term -/

theorem test_wf_data_delim : Instr.wf Config.datvideo (.data 0x7E#8) = false := by decide
theorem test_wf_data_esc : Instr.wf Config.datvideo (.data 0x7D#8) = false := by decide
theorem test_wf_escOther_delim : Instr.wf Config.datvideo (.escOther 0x7E#8) = false := by decide
theorem test_wf_escOther_esc : Instr.wf Config.datvideo (.escOther 0x7D#8) = false := by decide
theorem test_wf_config : Config.datvideo.wf = true ∧ Config.datvideo.coversChunks = true := by decide
theorem test_wf_config_delim : Config.wf { Config.datvideo with esc := 0x7E#8 } = false := by decide
theorem test_wf_config_maxFrame : Config.wf { Config.datvideo with maxFrame := 1 } = false := by decide
theorem test_wf_config_chunkSize : Config.wf { Config.datvideo with chunkSize := 0 } = false := by decide

/-- V-DEC-6's configuration is well formed but does not cover the chunks of 188 bytes. -/
theorem test_wf_small : small.wf = true ∧ small.coversChunks = false := by decide

/-! ## The CRC-16 generator: V-CRC-4, V-CRC-1, V-CRC-6 -/

theorem test_crcInit : crcOf (exec .crcInit (crcAt 0x1234#16)) = some 0xFFFF#16 := by decide
theorem test_crcByte : crcOf (exec (.crcByte 0x56#8) (crcAt 0x1234#16)) = some 0x3C40#16 := by decide
theorem test_crcByte_top : crcOf (exec (.crcByte 0x80#8) (crcAt 0x0000#16)) = some 0x9188#16 := by decide
theorem test_crcBit : crcOf (exec (.crcBit false) (crcAt 0xFFFF#16)) = some 0xEFDF#16 := by decide
theorem test_crcBit_cancels : crcOf (exec (.crcBit true) (crcAt 0x8000#16)) = some 0x0000#16 := by decide
theorem test_crcGet : (stateOf (exec .crcGet State.reset)).map (fun s => (s.out.crcOut, s.crc))
    = some (some 0xFFFF#16, 0xFFFF#16) := by decide

/-- "123456789". -/
def checkString : List Byte := [0x31, 0x32, 0x33, 0x34, 0x35, 0x36, 0x37, 0x38, 0x39]

theorem test_crc16_check : crc16 CrcParams.datvideo checkString = 0x29B1#16 := by decide +kernel
theorem test_crc16_scenario : crc16 CrcParams.datvideo [0x01, 0x7E, 0x7D, 0x02] = 0x6F3A#16 := by decide +kernel
theorem test_crc16_reflected : crc16 ⟨0x1021, 0xFFFF, true, true, 0xFFFF⟩ checkString = 0x906E#16 := by decide +kernel
theorem test_crc16_other_poly : crc16 ⟨0x8005, 0x0000, true, true, 0x0000⟩ checkString = 0xBB3D#16 := by decide +kernel
theorem test_crc16_xorout : crc16 ⟨0x1021, 0xFFFF, false, false, 0xFFFF⟩ checkString = 0xD64E#16 := by decide +kernel

/-! ## The encoder: 41_stuff_encoder.md section 5, R133, V-ENC-1 -/

theorem test_encSof : encOf (exec .encSof State.reset) = some ([0x7E#8], 0xFFFF#16, .encBusy) := by decide
theorem test_encSof_refused : refusalIn (exec .encSof (busyAt 0xFFFF#16)) = some .sofWhileBusy := by decide
theorem test_encData : encOf (exec (.encData 0x7E#8) (busyAt 0xF1D1#16))
    = some ([0x7D#8, 0x7E#8], 0xB167#16, .encBusy) := by decide
theorem test_encData_plain : encOf (exec (.encData 0x10#8) (busyAt 0xFFFF#16))
    = some ([0x10#8], 0xF3C1#16, .encBusy) := by decide
theorem test_encEof : encOf (exec .encEof (busyAt 0x6F3A#16))
    = some ([0x6F#8, 0x3A#8, 0x7E#8], 0x6F3A#16, .encIdle) := by decide
theorem test_encEof_stuffed : encOf (exec .encEof (busyAt 0x7E7E#16))
    = some ([0x7D#8, 0x7E#8, 0x7D#8, 0x7E#8, 0x7E#8], 0x7E7E#16, .encIdle) := by decide

theorem test_encode_scenario : valueOf (encodeFrame Config.datvideo [0x01, 0x7E, 0x7D, 0x02])
    = some [0x7E, 0x01, 0x7D, 0x7E, 0x7D, 0x7D, 0x02, 0x6F, 0x3A, 0x7E] := by decide +kernel
theorem test_encode_stuffed_checksum : valueOf (encodeFrame Config.datvideo [0xEB, 0x7D])
    = some [0x7E, 0xEB, 0x7D, 0x7D, 0x7D, 0x7E, 0x7D, 0x7D, 0x7E] := by decide +kernel

/-- R11: with `DELIM = ESC` the encoder, and with `CHUNK_SIZE = 0` the driver, is refused. -/
theorem test_encode_ill_formed :
    refusalIn (encodeFrame { Config.datvideo with esc := 0x7E#8 } [0x41]) = some .illFormedConfig := by decide
theorem test_driver_ill_formed :
    refusalIn (driverChunks { Config.datvideo with chunkSize := 0 } [0x41]) = some .illFormedConfig
    ∧ refusalIn (encodeStream { Config.datvideo with chunkSize := 0 } [0x41]) = some .illFormedConfig := by
  decide

/-- V-PRG-2: a five-byte input in chunks of two. -/
theorem test_driver_chunks : valueOf (driverChunks { Config.datvideo with chunkSize := 2 }
    [0x10, 0x7E, 0x20, 0x7D, 0x30]) = some [[0x10, 0x7E], [0x20, 0x7D], [0x30]] := by decide

/-! ## The decoder: the examples of R151 to R164, and V-DEC-6 to V-DEC-8 with `MAX_FRAME = 4` -/

theorem test_decRx_open : decOf (exec (.decRx 0x7E#8) State.reset) = some (.none, .inFrame, 0) := by decide
theorem test_decRx_append : (stateOf (exec (.decRx 0xB9#8) (holding .inFrame [0x41]))).map (·.buf)
    = some [(0, 0x41#8), (1, 0xB9#8)] := by decide
theorem test_delim_close : decOf (exec .delim (holding .inFrame [0x41, 0xB9, 0x15]))
    = some (.chunk [0x41], .reset, 0) := by decide
theorem test_delim_mismatch : decOf (exec .delim (holding .inFrame [0x40, 0xB9, 0x15]))
    = some (.condition .crcMismatch, .reset, 0) := by decide
theorem test_delim_empty_chunk : decOf (exec .delim (holding .inFrame [0xFF, 0xFF]))
    = some (.chunk [], .reset, 0) := by decide
theorem test_delim_short : decOf (exec .delim (holding .inFrame [0x41]))
    = some (.condition .shortFrame, .reset, 0) := by decide
theorem test_esc : decOf (exec .esc (holding .inFrame [0x41])) = some (.none, .inEscape, 1) := by decide
theorem test_esc_ignored : decOf (exec .esc State.reset) = some (.none, .reset, 0) := by decide
theorem test_data_ignored : decOf (exec (.data 0x55#8) State.reset) = some (.none, .reset, 0) := by decide
theorem test_data_invalid : decOf (exec (.data 0x42#8) (holding .inEscape [0x41]))
    = some (.condition .invalidEscape, .reset, 0) := by decide
theorem test_data_long : decOf (execWith small (.data 0x05#8) (holding .inFrame [1, 2, 3, 4]))
    = some (.condition .longFrame, .reset, 0) := by decide
theorem test_delim_full : decOf (execWith small .delim (holding .inFrame [0x01, 0x02, 0x0E, 0x7C]))
    = some (.chunk [0x01, 0x02], .reset, 0) := by decide
theorem test_escDelim : (stateOf (exec .escDelim (holding .inFrame [0x01]))).map (fun s => (s.buf, s.rxState))
    = some ([(0, 0x01#8), (1, 0x7E#8)], .inFrame) := by decide
theorem test_escDelim_long : decOf (execWith small .escDelim (holding .inFrame [1, 2, 3, 4]))
    = some (.condition .longFrame, .reset, 0) := by decide
theorem test_escEsc : (stateOf (exec .escEsc (holding .inFrame [0x01]))).map (fun s => (s.buf, s.rxState))
    = some ([(0, 0x01#8), (1, 0x7D#8)], .inFrame) := by decide
theorem test_escOther : decOf (exec (.escOther 0x42#8) (holding .inFrame [0x41]))
    = some (.condition .invalidEscape, .reset, 0) := by decide
theorem test_escOther_full : decOf (execWith small (.escOther 0x00#8) (holding .inFrame [1, 2, 3, 4]))
    = some (.condition .invalidEscape, .reset, 0) := by decide

/-! ## System operations (R190, R191) and steps -/

theorem test_decEos : decOf (exec .decEos (holding .inFrame [0x41, 0xB9])) = some (.none, .reset, 0) := by decide
theorem test_reset : (stateOf (exec .reset { holding .inEscape [1, 2, 3] with encState := .encBusy, crc := 1 })).map
    (fun s => (s.rxState, s.len, s.encState, s.crc, s.out.event))
    = some (.reset, 0, .encIdle, 0xFFFF#16, .none) := by decide

theorem test_step_runs_first_word :
    encOf (step (State.reset.withFetchWord 16 0x400)) = some ([0x7E#8], 0xFFFF#16, .encBusy) := by decide
theorem test_step_reserved :
    refusalIn (step (State.reset.withFetchWord 16 0x700)) = some (.reservedOpcode 0x7#4) := by decide
theorem test_step_idle : stateOf (step State.reset) = some State.reset := by decide

/-- The counts of V-PRG-3 (R237). -/
theorem test_report : reportOf [.condition .shortFrame, .chunk [1, 2], .condition .invalidEscape,
    .condition .shortFrame] = ⟨1, 2, 0, 1, 0⟩ := by decide

/-! ## Witnesses: for every statement with hypotheses, terms that meet them together -/

theorem witness_DecodeInvertsEncode :
    Config.datvideo.wf = true ∧ Instr.wf Config.datvideo (.data 0x7C#8) = true
    ∧ small.wf = true ∧ Instr.wf small (.escOther 0xFF#8) = true := by decide

theorem witness_DecodeIgnoresOnlyUnusedBits :
    decode (.symbol 0x7D7E#16) = .ok .escDelim ∧ InputWord.format (.symbol 0x7D7E#16) ≠ .K
    ∧ decode (.command 0x5FF#12) = .ok (.encData 0xFF#8) ∧ commandOp 0x5FF#12 ∈ [0x1#4, 0x5#4, 0x8#4]
    ∧ decode (.command 0xFFF#12) = .ok .reset
    ∧ 0xF#4 ∈ [0x0#4, 0x3#4, 0x4#4, 0x6#4, 0x9#4, 0xF#4] := by decide

theorem witness_ReservedCommandWordsAreRefused :
    commandOp 0xEFF#12 ∈ [0x7#4, 0xA#4, 0xB#4, 0xC#4, 0xD#4, 0xE#4]
    ∧ commandOp 0xF00#12 ∉ [0x7#4, 0xA#4, 0xB#4, 0xC#4, 0xD#4, 0xE#4] := by decide

theorem witness_StepRunsDecodedInstruction :
    (State.reset.withInput [.word (.command 0x841#12)]).input = .word (.command 0x841#12) :: []
    ∧ decode (.command 0x841#12) = .ok (.decRx 0x41#8) := by decide

theorem witness_StepsWithoutAnInstruction : State.reset.input = [] := by decide

theorem witness_ResetTokenResetsEveryUnit :
    (State.reset.withInput [.resetUnit .enc]).input = .resetUnit .enc :: [] := by decide

theorem witness_StepTakesOneToken :
    (State.reset.withInput [.word (.wire 0x7E#8)]).input = .word (.wire 0x7E#8) :: []
    ∧ (stateOf (step (State.reset.withInput [.word (.wire 0x7E#8)]))).isSome = true := by decide

theorem witness_IllFormedConfigurationsAreRefused :
    Config.delim { Config.datvideo with esc := 0x7E#8 } = Config.esc { Config.datvideo with esc := 0x7E#8 }
    ∧ Config.maxFrame { Config.datvideo with maxFrame := 1 } < 2
    ∧ Config.chunkSize { Config.datvideo with chunkSize := 0 } < 1 := by decide

theorem witness_MixedWidthsAdvanceOneRegister :
    ∀ i ∈ [Instr.crcBit true, .crcByte 0x41#8], (∃ d, i = .crcBit d) ∨ ∃ d, i = .crcByte d := by
  intro i hi
  simp only [List.mem_cons, List.not_mem_nil, or_false] at hi
  rcases hi with rfl | rfl
  · exact .inl ⟨_, rfl⟩
  · exact .inr ⟨_, rfl⟩

theorem witness_ChecksumIsLinear : [0x41#8].length = [0x42#8].length := by decide

/-- A burst of exactly 16 bits. -/
theorem witness_BurstErrorsAreDetected :
    [0x80#8, 0x01#8].length = [0x00#8, 0x00#8].length ∧ [0x80#8, 0x01#8] ≠ [0x00#8, 0x00#8]
    ∧ ∀ j, (messageBits [0x80#8, 0x01#8])[j]? ≠ (messageBits [0x00#8, 0x00#8])[j]? → 0 ≤ j ∧ j < 0 + 16 := by
  refine ⟨by decide, by decide, fun j h => ⟨Nat.zero_le j, ?_⟩⟩
  rcases Nat.lt_or_ge j 16 with h' | h'
  · simpa using h'
  · rw [List.getElem?_eq_none (by exact h'), List.getElem?_eq_none (by exact h')] at h
    exact absurd rfl h

theorem witness_EncSofOpensTheFrame :
    State.reset.encState = .encIdle ∧ (busyAt 0xFFFF#16).encState = .encBusy := by decide
theorem witness_EncDataStuffsTheByte :
    (busyAt 0xF1D1#16).encState = .encBusy ∧ State.reset.encState = .encIdle := by decide
theorem witness_EncEofClosesTheFrame :
    (busyAt 0x7E7D#16).encState = .encBusy ∧ (busyAt 0x7E7D#16).encCrc = 0x7E#8 ++ 0x7D#8
    ∧ State.reset.encState = .encIdle := by decide

theorem witness_AcceptedEncoderProgramsAreChunks :
    State.reset.encState = .encIdle
    ∧ ∀ i ∈ [Instr.encSof, .encData 0x7E#8, .encEof], i = .encSof ∨ i = .encEof ∨ ∃ d, i = .encData d := by
  refine ⟨rfl, fun i hi => ?_⟩
  simp only [List.mem_cons, List.not_mem_nil, or_false] at hi
  rcases hi with rfl | rfl | rfl
  · exact .inl rfl
  · exact .inr (.inr ⟨_, rfl⟩)
  · exact .inr (.inl rfl)

theorem witness_ChunkTokensEmitTheFrame : State.reset.encState = .encIdle := by decide

theorem witness_ResetStateHuntsForDelim : State.reset.rxState = .reset ∧ 0x7D#8 ≠ 0x7E#8 := by decide
theorem witness_EscapeKeepsTheBuffer : (holding .inFrame [0x41]).rxState = .inFrame := by decide

/-- The last byte for which there is room, in both of the states that append. -/
theorem witness_AppendStoresAtLen :
    let s : State := { State.reset with rxState := .inFrame, len := 1048575 }
    let t : State := { State.reset with rxState := .inEscape, len := 1048575 }
    (s.rxState = .inFrame ∧ 0x41#8 ≠ 0x7E#8 ∧ 0x41#8 ≠ 0x7D#8) ∧ s.len + 1 ≤ 1048576
    ∧ (t.rxState = .inEscape ∧ (0x7E#8 = 0x7E#8 ∨ 0x7E#8 = 0x7D#8)) ∧ t.len + 1 ≤ 1048576 := by decide

/-- The first byte for which there is none. -/
theorem witness_FullBufferRaisesLongFrame :
    let s : State := { State.reset with rxState := .inFrame, len := 1048576 }
    let t : State := { State.reset with rxState := .inEscape, len := 1048576 }
    (s.rxState = .inFrame ∧ 0x41#8 ≠ 0x7E#8 ∧ 0x41#8 ≠ 0x7D#8) ∧ s.len + 1 > 1048576
    ∧ (t.rxState = .inEscape ∧ (0x7D#8 = 0x7E#8 ∨ 0x7D#8 = 0x7D#8)) ∧ t.len + 1 > 1048576 := by decide

theorem witness_DataAfterEscapeIsInvalid :
    (holding .inEscape [0x41]).rxState = .inEscape ∧ 0x7C#8 ≠ 0x7E#8 ∧ 0x7C#8 ≠ 0x7D#8 := by decide

/-- One byte is the longest short frame; two bytes are the shortest frame that is checked. -/
theorem witness_CloseChecksTheFrame :
    (holding .inFrame [0x41]).rxState = .inFrame ∧ (holding .inFrame [0x41]).len < 2
    ∧ (holding .inFrame [0xFF, 0xFF]).rxState = .inFrame
    ∧ bufContents Config.datvideo (holding .inFrame [0xFF, 0xFF]) = .ok ([] ++ [0xFF#8, 0xFF#8])
    ∧ 0xFF#8 ++ 0xFF#8 = crc16 CrcParams.datvideo []
    ∧ bufContents Config.datvideo (holding .inFrame [0x40, 0xB9, 0x15]) = .ok ([0x40#8] ++ [0xB9#8, 0x15#8])
    ∧ 0xB9#8 ++ 0x15#8 ≠ crc16 CrcParams.datvideo [0x40#8] :=
  ⟨by decide, by decide, by decide, rfl, by decide, rfl, by decide⟩

theorem witness_ReceiveRefinesTransitionTable :
    GoodState Config.datvideo (holding .inEscape [0x41])
    ∧ DecHolds Config.datvideo (holding .inEscape [0x41]) (.inEscape, [0x41])
    ∧ receivedByte Config.datvideo .delim = some 0x7E#8 :=
  ⟨holding_good _ _ (by decide) (by decide), ⟨rfl, rfl⟩, rfl⟩

theorem witness_ConditionEntryClearsAndResets :
    ∃ t, exec (.decRx 0x42#8) (holding .inEscape [0x41]) = .next t ∧ t.out.event = .condition .invalidEscape :=
  ⟨_, rfl, rfl⟩

/-- Each event at the boundary of its length: two bytes, one byte, a full buffer (in both states). -/
theorem witness_EventsNeedTheirByteAndState :
    (∃ t, exec (.decRx 0x7E#8) (holding .inFrame [0xFF, 0xFF]) = .next t ∧ ∃ p, t.out.event = .chunk p)
    ∧ (∃ t, exec (.decRx 0x7E#8) (holding .inFrame [0xFF, 0xFE]) = .next t
        ∧ t.out.event = .condition .crcMismatch)
    ∧ (∃ t, exec (.decRx 0x7E#8) (holding .inFrame [0xFF]) = .next t
        ∧ t.out.event = .condition .shortFrame)
    ∧ (∃ t, exec (.decRx 0x00#8) { State.reset with rxState := .inFrame, len := 1048576 } = .next t
        ∧ t.out.event = .condition .longFrame)
    ∧ (∃ t, exec (.decRx 0x7E#8) { State.reset with rxState := .inEscape, len := 1048576 } = .next t
        ∧ t.out.event = .condition .longFrame)
    ∧ (∃ t, exec (.decRx 0x00#8) (holding .inEscape []) = .next t
        ∧ t.out.event = .condition .invalidEscape) :=
  ⟨⟨_, rfl, _, rfl⟩, ⟨_, rfl, rfl⟩, ⟨_, rfl, rfl⟩, ⟨_, rfl, rfl⟩, ⟨_, rfl, rfl⟩, ⟨_, rfl, rfl⟩⟩

theorem witness_EscapeStateLastsOneByte :
    ∃ t, exec (.decRx 0x7D#8) (holding .inFrame [0x41]) = .next t ∧ t.rxState = .inEscape := ⟨_, rfl, rfl⟩

theorem witness_InstructionsKeepToTheirUnit :
    ∃ t, exec .escEsc (holding .inFrame [0x41]) = .next t ∧ 0 < (holding .inFrame [0x41]).len
      ∧ concerns .crc .escEsc = false ∧ concerns .enc .escEsc = false ∧ concerns .dec .encSof = false :=
  ⟨_, rfl, by decide⟩

theorem witness_SymbolsAreTwoReceivedBytes :
    (∃ t u, exec (.decRx 0x7D#8) (holding .inFrame [0x41]) = .next t ∧ exec (.decRx 0x7E#8) t = .next u)
    ∧ GoodState Config.datvideo (holding .inFrame [0x41]) :=
  ⟨⟨_, _, rfl, rfl⟩, holding_good _ _ (by decide) (by decide)⟩

theorem witness_SymbolsInsideAFrame :
    let s : State := { State.reset with rxState := .inFrame, len := 1048575 }
    s.rxState = .inFrame ∧ s.len + 1 ≤ 1048576 ∧ 0x7F#8 ≠ 0x7E#8 ∧ 0x7F#8 ≠ 0x7D#8 := by decide

theorem witness_StepKeepsTheInvariant :
    GoodState Config.datvideo (holding .inFrame [0x41])
    ∧ ∃ t, step (holding .inFrame [0x41]) = .next t :=
  ⟨holding_good _ _ (by decide) (by decide), _, rfl⟩

theorem witness_RunsFromTheInvariantNeverFault : GoodState Config.datvideo (holding .inEscape [0x41]) :=
  holding_good _ _ (by decide) (by decide)

/-- The decoder closes a frame over different stale bytes. -/
theorem witness_StaleBufferBytesAreUnobservable :
    AgreeBelowLen (holding .inFrame [0x41])
      { holding .inFrame [0x41] with buf := [(0, 0x41#8), (1, 0x99#8)] }
    ∧ ∃ t, exec .delim (holding .inFrame [0x41]) = .next t := by
  refine ⟨⟨rfl, rfl, rfl, rfl, rfl, rfl, rfl, fun a ha => ?_⟩, _, rfl⟩
  have : a = 0 := by simp [holding] at ha; omega
  subst this
  rfl

theorem witness_InterleavingDoesNotMatter :
    ∃ t tr, runTokens [.encSof, .crcInit, .decRx 0x7E#8, .encData 0x41#8] State.reset = .next (t, tr) :=
  ⟨_, _, rfl⟩

theorem witness_EncodedChunkIsRecovered :
    small.wf = true ∧ [0x7E#8, 0x7D#8].length + 2 ≤ small.maxFrame ∧ State.reset.rxState = .reset
    ∧ State.reset.len = 0 := by decide

theorem witness_ConcatenatedFramesAreRecovered :
    small.wf = true ∧ small.delim ∉ [0x7D#8]
    ∧ ∀ f ∈ [([0x41#8, 0x42#8], [0x00#8, 0x7D#8, 0x00#8]), ([], [])],
        f.1.length + 2 ≤ small.maxFrame ∧ small.delim ∉ f.2 := by decide

/-- A frame split between an `ESC` and its literal (V-DEC-9). -/
theorem witness_FragmentationDoesNotMatter :
    GoodState Config.datvideo (holding .inEscape [0x01])
    ∧ DecHolds Config.datvideo (holding .inEscape [0x01]) (.inEscape, [0x01]) :=
  ⟨holding_good _ _ (by decide) (by decide), rfl, rfl⟩

/-- A payload byte and, at the end, the low checksum byte. -/
theorem witness_InvertedLiteralBitIsDetected :
    [0x41#8].length + 2 ≤ 1048576
    ∧ (frameBody Config.datvideo [0x41])[0]? = some 0x41#8 ∧ 0 < 8
    ∧ reserved Config.datvideo 0x41#8 = false ∧ reserved Config.datvideo (0x41#8 ^^^ (1#8 <<< 0)) = false
    ∧ (frameBody Config.datvideo [0x41])[2]? = some 0x15#8 ∧ 7 < 8
    ∧ reserved Config.datvideo 0x15#8 = false ∧ reserved Config.datvideo (0x15#8 ^^^ (1#8 <<< 7)) = false
    ∧ State.reset.rxState = .reset ∧ State.reset.len = 0 := by
  decide

theorem witness_OversizedFrameIsDropped :
    small.wf = true ∧ State.reset.rxState = .reset ∧ State.reset.len = 0
    ∧ [0x01#8, 0x7E#8, 0x03#8, 0x04#8, 0x7D#8].length = small.maxFrame + 1
    ∧ [0x01#8, 0x02#8, 0x0E#8, 0x7C#8].length = small.maxFrame := by decide

theorem witness_DeliveredChunksWereOnTheWire :
    State.reset.rxState = .reset ∧ State.reset.len = 0
    ∧ ∃ t tr e, runTokens (streamTokens [0x55, 0x7E, 0xFF, 0xFF, 0x7E]) State.reset = .next (t, tr ++ [e])
        ∧ e.out.event = .chunk [] :=
  ⟨rfl, rfl, _,
    [⟨.decRx 0x55, Output.silent⟩, ⟨.decRx 0x7E, Output.silent⟩, ⟨.decRx 0xFF, Output.silent⟩,
      ⟨.decRx 0xFF, Output.silent⟩],
    ⟨.decRx 0x7E, { Output.silent with event := .chunk [] }⟩, rfl, rfl⟩

theorem witness_EventsAreBoundedByDelimiters :
    State.reset.rxState = .reset ∧ State.reset.len = 0
    ∧ ∃ t tr, runTokens (streamTokens [0x7E, 0x7E, 0x7E]) State.reset = .next (t, tr) := ⟨rfl, rfl, _, _, rfl⟩

theorem witness_DelimiterFillIsShortFrames : State.reset.rxState = .reset ∧ State.reset.len = 0 := by decide

theorem witness_ReportCountsEventsSinceReset :
    TraceEntry.instr ⟨.reset, Output.silent⟩ = .reset
    ∧ ∀ x ∈ [TraceEntry.mk .delim { Output.silent with event := .condition .shortFrame }],
        x.instr ≠ .reset := by decide

theorem witness_OutOfPhaseFramesAreLost :
    (holding .inFrame []).rxState = .inFrame ∧ (holding .inFrame []).len = 0
    ∧ ∀ p ∈ [[0x41#8], [0x7D#8]], 0x7E#8 ∉ frameBody Config.datvideo p := by decide

/-- A full buffer. -/
theorem holding_full (bs : List Byte) (h : bs.length = 1048576) :
    GoodState Config.datvideo (holding .inFrame bs) ∧ (holding .inFrame bs).len + 1 > 1048576 :=
  ⟨holding_good _ _ (by decide) (Nat.le_of_eq h), by rw [show (holding .inFrame bs).len = bs.length from rfl, h]; omega⟩

/-- Every case of the conclusion: an open frame with room and with a full buffer, and a pending escape. -/
theorem witness_FillForcesReset :
    GoodState Config.datvideo (holding .inFrame [0x41])
    ∧ (GoodState Config.datvideo (holding .inFrame (List.replicate 1048576 0x41#8))
      ∧ (holding .inFrame (List.replicate 1048576 0x41#8)).len + 1 > 1048576)
    ∧ GoodState Config.datvideo (holding .inEscape []) :=
  ⟨holding_good _ _ (by decide) (by decide), holding_full _ List.length_replicate,
    holding_good _ _ (by decide) (by decide)⟩

theorem witness_EncodedStreamIsRecovered :
    Config.datvideo.wf = true ∧ Config.datvideo.coversChunks = true := by decide

end Sys2Proof.Tests
end

section
/-! SUPPORT. The configurable machine: at this hardware's parameters it is `exec` and `step` (00_scope.md R7
to R10), and under an ill-formed configuration nothing of it has a meaning (R11). -/

namespace Sys2Proof.Machine

/-! ## The machine at this hardware's parameters -/

/-- Every arm of `exec` is the configurable meaning at `Config.datvideo`. -/
theorem exec_eq_execWith_datvideo (i : Instr) (s : State) : exec i s = execWith Config.datvideo i s := by
  cases i <;> rfl

/-- Beyond `exec`, a step uses the configuration only to fetch and to reset one unit. -/
theorem step_eq_stepWith_datvideo (s : State) : step s = stepWith Config.datvideo s := by
  have hwf : Config.datvideo.wf = true := by decide
  rw [step, stepWith, if_pos hwf, fetch]
  cases fetchWith Config.datvideo s with
  | nothing => rfl
  | unitReset u rest => rfl
  | instr i rest => exact exec_eq_execWith_datvideo i (s.withInput rest)
  | reject r => rfl

/-! ## Ill-formed configurations -/

/-- The three causes of R11. -/
theorem config_wf_eq_false_iff (cfg : Config) :
    cfg.wf = false ↔ cfg.delim = cfg.esc ∨ cfg.maxFrame < 2 ∨ cfg.chunkSize < 1 := by
  simp only [Config.wf, Bool.and_eq_false_iff, bne_eq_false_iff_eq, decide_eq_false_iff_not, Nat.not_le, or_assoc]

/-- A run stops at the first refusal. -/
theorem runWith_cons_refused {ex : Instr → State → Host.Outcome State Fault Refusal} {i : Instr} {s : State}
    {r : Refusal} (h : ex i s = .refused r) (is : List Instr) : runWith ex (i :: is) s = .refused r := by
  simp only [runWith, h]

section
variable {cfg : Config} (h : cfg.wf = false)
include h

@[simp] theorem execWith_of_ill (i : Instr) (s : State) : execWith cfg i s = .refused .illFormedConfig := by
  simp [execWith, h]

@[simp] theorem stepWith_of_ill (s : State) : stepWith cfg s = .refused .illFormedConfig := by
  simp [stepWith, h]

@[simp] theorem encodeFrame_of_ill (p : List Byte) : encodeFrame cfg p = .refused .illFormedConfig :=
  whenWellFormed_of_ill h _

@[simp] theorem driverChunks_of_ill (bs : List Byte) : driverChunks cfg bs = .refused .illFormedConfig :=
  whenWellFormed_of_ill h _

@[simp] theorem encodeStream_of_ill (bs : List Byte) : encodeStream cfg bs = .refused .illFormedConfig := by
  rw [encodeStream, driverChunks_of_ill h]

/-- The token program is never empty: its first token, `DEC.RX` or the closing `DEC.EOS`, is refused. -/
@[simp] theorem decodeEvents_of_ill (w : List Byte) : decodeEvents cfg w = .refused .illFormedConfig := by
  have hrun : runWith (execWith cfg) (streamTokens w ++ [.decEos]) (State.initial cfg)
      = .refused .illFormedConfig := by
    cases w with
    | nil => exact runWith_cons_refused (execWith_of_ill h _ _) _
    | cons d w => exact runWith_cons_refused (execWith_of_ill h _ _) _
  rw [decodeEvents, hrun]

@[simp] theorem decodeStream_of_ill (w : List Byte) : decodeStream cfg w = .refused .illFormedConfig := by
  rw [decodeStream, decodeEvents_of_ill h]

end

/-- Settles O9: the first part arm by arm, the second from the refusal of each operation under R11. -/
theorem illFormedConfigurationsAreRefused : Obligations.IllFormedConfigurationsAreRefused := by
  refine ⟨fun i s => ⟨exec_eq_execWith_datvideo i s, step_eq_stepWith_datvideo s⟩, fun cfg i s bs hcause => ?_⟩
  have h : cfg.wf = false := (config_wf_eq_false_iff cfg).2 hcause
  exact ⟨execWith_of_ill h i s, stepWith_of_ill h s, encodeFrame_of_ill h bs, driverChunks_of_ill h bs,
    encodeStream_of_ill h bs, decodeEvents_of_ill h bs, decodeStream_of_ill h bs⟩

end Sys2Proof.Machine
end

section
/-! SUPPORT. The invariant `GoodState` and the unobservability of stale buffer bytes (10_state.md section 3, R35,
R37): what each instruction does to the decoder's registers and its buffer, said once for both. -/

namespace Sys2Proof.Machine

/-! ## Instructions that leave the buffer alone -/

/-- A meaning that neither reads nor writes the buffer: it keeps the decoder's registers or empties the frame,
and it answers the same whatever the buffer holds. -/
structure LeavesBuffer (f : State → Host.Outcome State Fault Refusal) : Prop where
  keeps_or_empties : ∀ s t, f s = .next t → SameDec s t ∨ (t.buf = s.buf ∧ t.len = 0)
  commutes : ∀ (s : State) (m : Memory),
    f { s with buf := m } = andThen (f s) fun t => .next { t with buf := m }

/-- A meaning that always completes, as an update of the state. -/
theorem leavesBuffer_next {g : State → State}
    (hdec : ∀ s, SameDec s (g s) ∨ ((g s).buf = s.buf ∧ (g s).len = 0))
    (hcomm : ∀ (s : State) (m : Memory), g { s with buf := m } = { g s with buf := m }) :
    LeavesBuffer fun s => .next (g s) where
  keeps_or_empties s t h := by cases h; exact hdec s
  commutes s m := congrArg Host.Outcome.next (hcomm s m)

theorem crcInitWith_leavesBuffer (cfg : Config) : LeavesBuffer (crcInitWith cfg) :=
  leavesBuffer_next (fun _ => .inl ⟨rfl, rfl, rfl⟩) fun _ _ => rfl

theorem crcByteWith_leavesBuffer (cfg : Config) (d : Byte) : LeavesBuffer (crcByteWith cfg d) :=
  leavesBuffer_next (fun _ => .inl ⟨rfl, rfl, rfl⟩) fun _ _ => rfl

theorem crcBitWith_leavesBuffer (cfg : Config) (d : Bool) : LeavesBuffer (crcBitWith cfg d) :=
  leavesBuffer_next (fun _ => .inl ⟨rfl, rfl, rfl⟩) fun _ _ => rfl

theorem crcGetWith_leavesBuffer (cfg : Config) : LeavesBuffer (crcGetWith cfg) :=
  leavesBuffer_next (fun _ => .inl ⟨rfl, rfl, rfl⟩) fun _ _ => rfl

theorem encSofWith_leavesBuffer (cfg : Config) : LeavesBuffer (encSofWith cfg) where
  keeps_or_empties s t h := by
    cases he : s.encState <;> rw [encSofWith, he] at h <;> cases h
    exact .inl ⟨rfl, rfl, rfl⟩
  commutes s _ := by rcases s with ⟨_, _ | _, _⟩ <;> rfl

theorem encDataWith_leavesBuffer (cfg : Config) (d : Byte) : LeavesBuffer (encDataWith cfg d) where
  keeps_or_empties s t h := by
    cases he : s.encState <;> rw [encDataWith, he] at h <;> cases h
    exact .inl ⟨rfl, rfl, rfl⟩
  commutes s _ := by rcases s with ⟨_, _ | _, _⟩ <;> rfl

theorem encEofWith_leavesBuffer (cfg : Config) : LeavesBuffer (encEofWith cfg) where
  keeps_or_empties s t h := by
    cases he : s.encState <;> rw [encEofWith, he] at h <;> cases h
    exact .inl ⟨rfl, rfl, rfl⟩
  commutes s _ := by rcases s with ⟨_, _ | _, _⟩ <;> rfl

theorem decEosWith_leavesBuffer (cfg : Config) : LeavesBuffer (decEosWith cfg) :=
  leavesBuffer_next (fun _ => .inr ⟨rfl, rfl⟩) fun _ _ => rfl

theorem resetWith_leavesBuffer (cfg : Config) : LeavesBuffer (resetWith cfg) :=
  leavesBuffer_next (fun _ => .inr ⟨rfl, rfl⟩) fun _ _ => rfl

/-- Every instruction receives one wire byte, or receives a two-byte symbol, or leaves the buffer alone. -/
theorem exec_receives_or_leavesBuffer (i : Instr) :
    (∃ d, exec i = decRxWith Config.datvideo d) ∨ (∃ x, exec i = rxSymbolWith Config.datvideo x)
      ∨ LeavesBuffer (exec i) := by
  cases i with
  | delim => exact .inl ⟨_, funext exec_delim⟩
  | esc => exact .inl ⟨_, funext exec_esc⟩
  | data b => exact .inl ⟨b, funext (exec_data b)⟩
  | decRx d => exact .inl ⟨d, funext (exec_decRx d)⟩
  | escDelim => exact .inr (.inl ⟨_, funext exec_escDelim⟩)
  | escEsc => exact .inr (.inl ⟨_, funext exec_escEsc⟩)
  | escOther x => exact .inr (.inl ⟨x, funext (exec_escOther x)⟩)
  | crcInit => exact .inr (.inr (crcInitWith_leavesBuffer Config.datvideo))
  | crcByte d => exact .inr (.inr (crcByteWith_leavesBuffer Config.datvideo d))
  | crcBit d => exact .inr (.inr (crcBitWith_leavesBuffer Config.datvideo d))
  | crcGet => exact .inr (.inr (crcGetWith_leavesBuffer Config.datvideo))
  | encSof => exact .inr (.inr (encSofWith_leavesBuffer Config.datvideo))
  | encData d => exact .inr (.inr (encDataWith_leavesBuffer Config.datvideo d))
  | encEof => exact .inr (.inr (encEofWith_leavesBuffer Config.datvideo))
  | decEos => exact .inr (.inr (decEosWith_leavesBuffer Config.datvideo))
  | reset => exact .inr (.inr (resetWith_leavesBuffer Config.datvideo))

/-! ## Sequencing -/

/-- Two steps in sequence answer a next state exactly when both do. -/
theorem andThen_eq_next_iff (o : Host.Outcome State Fault Refusal)
    (k : State → Host.Outcome State Fault Refusal) (u : State) :
    andThen o k = .next u ↔ ∃ t, o = .next t ∧ k t = .next u := by
  cases o <;> simp [andThen]

/-- Everything a two-byte symbol can do when it answers a next state. -/
theorem rxSymbolWith_eq_next_iff (cfg : Config) (x : Byte) (s u : State) :
    rxSymbolWith cfg x s = .next u
      ↔ ∃ t v, decRxWith cfg cfg.esc s = .next t ∧ decRxWith cfg x t = .next v
        ∧ u = { v with out := { v.out with event := Event.orElse t.out.event v.out.event } } := by
  simp only [rxSymbolWith, andThen_eq_next_iff, Host.Outcome.next.injEq, exists_and_left, eq_comm (b := u)]

/-- Everything a step can do when it answers a next state. -/
theorem step_next_cases {s t : State} (h : step s = .next t) :
    t = s.idle ∨ (∃ u rest, t = resetUnit u (s.withInput rest))
      ∨ ∃ i rest, exec i (s.withInput rest) = .next t := by
  rw [step] at h
  cases hf : fetch s with
  | nothing => rw [hf] at h; exact .inl (Host.Outcome.next.inj h).symm
  | unitReset u rest => rw [hf] at h; exact .inr (.inl ⟨u, rest, (Host.Outcome.next.inj h).symm⟩)
  | instr i rest => rw [hf] at h; exact .inr (.inr ⟨i, rest, h⟩)
  | reject r => rw [hf] at h; cases h

/-! ## The invariant -/

namespace GoodState

/-- The invariant speaks of the decoder's registers and buffer only. -/
theorem of_sameDec {cfg : Config} {s t : State} (hg : GoodState cfg s) (h : SameDec s t) :
    GoodState cfg t := by
  obtain ⟨hrx, hbuf, hlen⟩ := h
  exact {
    lenBound := hlen ▸ hg.lenBound
    emptyInReset := by rw [hrx, hlen]; exact hg.emptyInReset
    bufWf := hbuf ▸ hg.bufWf
    bufInRange := hbuf ▸ hg.bufInRange
    collected := by rw [hbuf, hlen]; exact hg.collected }

/-- An empty frame over an unchanged buffer is good in every receive state. -/
theorem of_emptied {cfg : Config} {s t : State} (hg : GoodState cfg s) (hbuf : t.buf = s.buf)
    (hlen : t.len = 0) : GoodState cfg t where
  lenBound := by omega
  emptyInReset _ := hlen
  bufWf := hbuf ▸ hg.bufWf
  bufInRange := hbuf ▸ hg.bufInRange
  collected a ha := by omega

/-- Outside `Reset` the invariant does not depend on the receive state. -/
theorem of_nonReset {cfg : Config} {s t : State} (hg : GoodState cfg s) (hrx : t.rxState ≠ .reset)
    (hbuf : t.buf = s.buf) (hlen : t.len = s.len) : GoodState cfg t where
  lenBound := hlen ▸ hg.lenBound
  emptyInReset h := absurd h hrx
  bufWf := hbuf ▸ hg.bufWf
  bufInRange := hbuf ▸ hg.bufInRange
  collected := by rw [hbuf, hlen]; exact hg.collected

/-- An append with room: the stored byte is in range, and every byte below the new `len` is collected. -/
theorem of_append {cfg : Config} {s t : State} {d : Byte} (hg : GoodState cfg s)
    (hroom : s.len + 1 ≤ cfg.maxFrame) (hrx : t.rxState ≠ .reset) (hbuf : t.buf = s.buf.write s.len d)
    (hlen : t.len = s.len + 1) : GoodState cfg t where
  lenBound := by omega
  emptyInReset h := absurd h hrx
  bufWf := hbuf ▸ Memory.write_wf _ _ _ hg.bufWf
  bufInRange c hc := by
    rw [hbuf] at hc
    rcases Memory.mem_write hc with rfl | hc
    · exact hroom
    · exact hg.bufInRange c hc
  collected a ha := by
    rw [hbuf]
    by_cases h : a = s.len
    · rw [h, Memory.read_write_same]; rfl
    · rw [Memory.read_write_other _ _ _ _ h]
      exact hg.collected a (by omega)

/-- The state after reset is good under every configuration. -/
theorem initial (cfg : Config) : GoodState cfg (State.initial cfg) where
  lenBound := Nat.zero_le _
  emptyInReset _ := rfl
  bufWf := rfl
  bufInRange _ hc := absurd hc List.not_mem_nil
  collected a ha := absurd ha (Nat.not_lt_zero a)

/-- Receiving a byte keeps the invariant: only an append with room lengthens the frame. -/
theorem of_decRxWith {cfg : Config} {d : Byte} {s t : State} (hg : GoodState cfg s)
    (h : decRxWith cfg d s = .next t) : GoodState cfg t := by
  rcases decRxWith_next_cases h with
    ⟨-, -, rfl⟩ | ⟨-, -, rfl⟩ | ⟨-, -, -, rfl⟩ | ⟨-, -, -, body, -, ⟨-, rfl⟩ | ⟨-, rfl⟩⟩ | ⟨-, -, -, rfl⟩
      | ⟨-, ⟨-, rfl⟩ | ⟨hroom, rfl⟩⟩ | ⟨-, -, -, rfl⟩
  · exact hg.of_sameDec ⟨rfl, rfl, rfl⟩
  · exact hg.of_emptied rfl rfl
  · exact hg.of_emptied rfl rfl
  · exact hg.of_emptied rfl rfl
  · exact hg.of_emptied rfl rfl
  · exact hg.of_nonReset (by simp) rfl rfl
  · exact hg.of_emptied rfl rfl
  · exact hg.of_append hroom (by simp) rfl rfl
  · exact hg.of_emptied rfl rfl

/-- Receiving a two-byte symbol keeps the invariant. -/
theorem of_rxSymbolWith {cfg : Config} {x : Byte} {s u : State} (hg : GoodState cfg s)
    (h : rxSymbolWith cfg x s = .next u) : GoodState cfg u := by
  obtain ⟨t, v, h1, h2, rfl⟩ := (rxSymbolWith_eq_next_iff ..).mp h
  exact ((hg.of_decRxWith h1).of_decRxWith h2).of_sameDec ⟨rfl, rfl, rfl⟩

theorem of_leavesBuffer {cfg : Config} {f : State → Host.Outcome State Fault Refusal} (hf : LeavesBuffer f)
    {s t : State} (hg : GoodState cfg s) (h : f s = .next t) : GoodState cfg t := by
  rcases hf.keeps_or_empties s t h with hsame | ⟨hbuf, hlen⟩
  · exact hg.of_sameDec hsame
  · exact hg.of_emptied hbuf hlen

/-- Every instruction keeps the invariant. -/
theorem of_exec {i : Instr} {s t : State} (hg : GoodState Config.datvideo s) (h : exec i s = .next t) :
    GoodState Config.datvideo t := by
  rcases exec_receives_or_leavesBuffer i with ⟨d, hd⟩ | ⟨x, hx⟩ | hl
  · exact hg.of_decRxWith (hd ▸ h)
  · exact hg.of_rxSymbolWith (hx ▸ h)
  · exact hg.of_leavesBuffer hl h

/-- The reset of one unit alone keeps the invariant. -/
theorem of_resetUnit {s : State} (u : UnitId) (hg : GoodState Config.datvideo s) :
    GoodState Config.datvideo (resetUnit u s) := by
  cases u with
  | crc => exact hg.of_sameDec ⟨rfl, rfl, rfl⟩
  | enc => exact hg.of_sameDec ⟨rfl, rfl, rfl⟩
  | dec => exact hg.of_emptied rfl rfl

theorem withInput {cfg : Config} {s : State} (hg : GoodState cfg s) (rest : List Input) :
    GoodState cfg (s.withInput rest) := hg.of_sameDec ⟨rfl, rfl, rfl⟩

end GoodState

/-- Settles O45: a step idles, resets one unit or executes an instruction, and each keeps the invariant. -/
theorem stepKeepsTheInvariant : Obligations.StepKeepsTheInvariant := by
  intro s t hg h
  rcases step_next_cases h with rfl | ⟨u, rest, rfl⟩ | ⟨i, rest, hi⟩
  · exact hg.of_sameDec ⟨rfl, rfl, rfl⟩
  · exact (hg.withInput rest).of_resetUnit u
  · exact (hg.withInput rest).of_exec hi

/-- Settles O44: the reset state is the initial state of this hardware's configuration. -/
theorem resetSatisfiesTheInvariant : Obligations.ResetSatisfiesTheInvariant := GoodState.initial _

/-! ## Stale buffer bytes -/

/-- A next state on the left is matched by one on the right that agrees with it below `len`. -/
def NextAgrees (o o' : Host.Outcome State Fault Refusal) : Prop :=
  ∀ t, o = .next t → ∃ t', o' = .next t' ∧ AgreeBelowLen t t'

namespace NextAgrees

theorem next {t t' : State} (h : AgreeBelowLen t t') : NextAgrees (.next t) (.next t') := by
  intro u hu
  cases hu
  exact ⟨t', rfl, h⟩

theorem fault (f : Fault) (o' : Host.Outcome State Fault Refusal) : NextAgrees (.fault f) o' :=
  fun _ h => by cases h

/-- Agreement goes through sequencing. -/
theorem andThen {o o' : Host.Outcome State Fault Refusal} {k k' : State → Host.Outcome State Fault Refusal}
    (ho : NextAgrees o o') (hk : ∀ t t', AgreeBelowLen t t' → NextAgrees (k t) (k' t')) :
    NextAgrees (Machine.andThen o k) (Machine.andThen o' k') := by
  intro u hu
  obtain ⟨t, h1, h2⟩ := (andThen_eq_next_iff ..).mp hu
  obtain ⟨t', h1', ht⟩ := ho t h1
  obtain ⟨u', h2', hu'⟩ := hk t t' ht u h2
  exact ⟨u', (andThen_eq_next_iff ..).mpr ⟨t', h1', h2'⟩, hu'⟩

end NextAgrees

namespace AgreeBelowLen

section
variable {s s' : State} (h : AgreeBelowLen s s')
include h

/-- The second state is the first over another buffer. -/
theorem eq_withBuf : s' = { s with buf := s'.buf } := by
  rw [← h.crc, ← h.encState, ← h.encCrc, ← h.rxState, ← h.len, ← h.out, ← h.input]

theorem quiet : AgreeBelowLen s.quiet s'.quiet :=
  ⟨h.crc, h.encState, h.encCrc, h.rxState, h.len, rfl, h.input, h.below⟩

theorem withRxState (rx : RxState) : AgreeBelowLen { s with rxState := rx } { s' with rxState := rx } :=
  ⟨h.crc, h.encState, h.encCrc, rfl, h.len, h.out, h.input, h.below⟩

/-- An empty frame makes every buffer byte stale. -/
theorem emptied (o : Output) (rx : RxState) :
    AgreeBelowLen { s with out := o, len := 0, rxState := rx } { s' with out := o, len := 0, rxState := rx } :=
  ⟨h.crc, h.encState, h.encCrc, rfl, rfl, rfl, h.input, fun a ha => absurd ha (Nat.not_lt_zero a)⟩

/-- One byte stored at `len` reads the same in both buffers. -/
theorem read_write_len {a : Nat} (d : Byte) (ha : a < s.len + 1) :
    (s'.buf.write s.len d).read a = (s.buf.write s.len d).read a := by
  by_cases hlast : a = s.len
  · rw [hlast, Memory.read_write_same, Memory.read_write_same]
  · rw [Memory.read_write_other _ _ _ _ hlast, Memory.read_write_other _ _ _ _ hlast]
    exact h.below a (by omega)

/-- The size test reads `len` only, and an append stores the same byte into both buffers. -/
theorem rxAppendOrLong (cfg : Config) (d : Byte) :
    NextAgrees (Machine.rxAppendOrLong cfg d s) (Machine.rxAppendOrLong cfg d s') := by
  have hlen := h.len
  rcases rxAppendOrLong_cases cfg d s with ⟨hfull, e⟩ | ⟨hroom, e⟩ <;>
    rcases rxAppendOrLong_cases cfg d s' with ⟨hfull', e'⟩ | ⟨hroom', e'⟩ <;> rw [e, e']
  · exact .next (h.emptied _ _)
  · omega
  · omega
  · rw [hlen]
    exact .next ⟨h.crc, h.encState, h.encCrc, rfl, rfl, rfl, h.input, fun a ha => h.read_write_len d ha⟩

/-- A close reads `buf[0 ..< len]` only. -/
theorem rxClose (cfg : Config) : NextAgrees (Machine.rxClose cfg s) (Machine.rxClose cfg s') := by
  have hread : memRead cfg s'.buf 0 s.len = memRead cfg s.buf 0 s.len :=
    memRead_congr cfg s.buf s'.buf 0 s.len fun i hi => h.below _ (by omega)
  rw [Machine.rxClose, Machine.rxClose, h.len, hread]
  split
  · exact .next (h.emptied _ _)
  · cases memRead cfg s.buf 0 s.len with
    | error f => exact .fault f _
    | ok body =>
      dsimp only
      split
      · exact .next (h.emptied _ _)
      · exact .next (h.emptied _ _)

/-- Receiving a byte does not observe stale bytes. -/
theorem decRxWith (cfg : Config) (d : Byte) :
    NextAgrees (Machine.decRxWith cfg d s) (Machine.decRxWith cfg d s') := by
  rw [Machine.decRxWith, Machine.decRxWith, h.rxState]
  cases s.rxState with
  | reset =>
    dsimp only
    split
    · exact .next (h.emptied _ _)
    · exact .next h.quiet
  | inFrame =>
    dsimp only
    split
    · exact h.rxClose cfg
    · split
      · exact .next (h.quiet.withRxState .inEscape)
      · exact h.rxAppendOrLong cfg d
  | inEscape =>
    dsimp only
    split
    · exact h.rxAppendOrLong cfg d
    · exact .next (h.emptied _ _)

/-- Receiving a two-byte symbol does not observe stale bytes. -/
theorem rxSymbolWith (cfg : Config) (x : Byte) :
    NextAgrees (Machine.rxSymbolWith cfg x s) (Machine.rxSymbolWith cfg x s') := by
  refine (h.decRxWith cfg cfg.esc).andThen fun t t' ht => (ht.decRxWith cfg x).andThen fun u u' hu => ?_
  rw [ht.out, hu.out]
  exact .next ⟨hu.crc, hu.encState, hu.encCrc, hu.rxState, hu.len, rfl, hu.input, hu.below⟩

/-- A meaning that leaves the buffer alone does not observe it, nor does it lengthen the frame. -/
theorem leavesBuffer {f : State → Host.Outcome State Fault Refusal} (hf : LeavesBuffer f) :
    NextAgrees (f s) (f s') := by
  intro t ht
  refine ⟨{ t with buf := s'.buf }, by rw [h.eq_withBuf, hf.commutes, ht]; rfl,
    ⟨rfl, rfl, rfl, rfl, rfl, rfl, rfl, fun a ha => ?_⟩⟩
  rcases hf.keeps_or_empties s t ht with ⟨-, hbuf, hlen⟩ | ⟨-, hlen⟩
  · rw [hbuf]
    exact h.below a (hlen ▸ ha)
  · omega

/-- No instruction observes stale bytes. -/
theorem exec (i : Instr) : NextAgrees (Machine.exec i s) (Machine.exec i s') := by
  rcases exec_receives_or_leavesBuffer i with ⟨d, hd⟩ | ⟨x, hx⟩ | hl
  · rw [hd]
    exact h.decRxWith _ d
  · rw [hx]
    exact h.rxSymbolWith _ x
  · exact h.leavesBuffer hl

end

end AgreeBelowLen

/-- Settles O47: a received byte reads `buf[0 ..< len]` only, and every other instruction reads no byte. -/
theorem staleBufferBytesAreUnobservable : Obligations.StaleBufferBytesAreUnobservable :=
  fun i _ _ t h ht => h.exec i t ht

/-! ## Reset values -/

/-- `RESET` resets the three units one after the other (R190). -/
theorem exec_reset (s : State) :
    exec .reset s = .next (resetDec (resetEnc Config.datvideo (resetCrc Config.datvideo s.quiet))) := rfl

/-- Settles O43: each register holds what the reset of its unit loads. -/
theorem resetStateHoldsTheResetValues : Obligations.ResetStateHoldsTheResetValues :=
  ⟨⟨rfl, rfl, rfl, rfl, rfl⟩, fun s => ⟨_, exec_reset s, rfl, rfl, rfl, rfl, rfl⟩⟩

end Sys2Proof.Machine
end

section
/-! SUPPORT. The independence of the three units (20_memory.md R60): an instruction other than `RESET` runs on its own
unit's registers alone, and moves and speaks for that unit alone. The bytes collected before an instruction stay as
they are (42_frame_decoder.md R168). -/

namespace Sys2Proof.Machine

/-! ## One unit's part of a state -/

/-- One unit's registers are the same in two states. -/
def SameUnit : UnitId → State → State → Prop
  | .crc => SameCrc
  | .enc => SameEnc
  | .dec => SameDec

/-- A step's outputs hold nothing of one unit. -/
def SilentOn : UnitId → Output → Prop
  | .crc, o => o.crcOut = none
  | .enc, o => o.outBytes = []
  | .dec, o => o.event = .none

/-- The outputs of one unit alone. -/
def outputOf : UnitId → Output → Output
  | .crc, o => { Output.silent with crcOut := o.crcOut }
  | .enc, o => { Output.silent with outBytes := o.outBytes }
  | .dec, o => { Output.silent with event := o.event }

/-- The state `r` with the registers that unit `u` has in `s`. -/
def withUnit (u : UnitId) (r s : State) : State :=
  match u with
  | .crc => { r with crc := s.crc }
  | .enc => { r with encState := s.encState, encCrc := s.encCrc }
  | .dec => { r with rxState := s.rxState, buf := s.buf, len := s.len }

/-- The state `r` after a step of unit `u` alone that leaves `u` as in `t`. -/
def moveUnit (u : UnitId) (r t : State) : State := { withUnit u r t with out := outputOf u t.out }

theorem withUnit_self : ∀ (u : UnitId) (s : State), withUnit u s s = s
  | .crc, _ => rfl
  | .enc, _ => rfl
  | .dec, _ => rfl

theorem withUnit_of_sameUnit {u : UnitId} {s r : State} (h : SameUnit u s r) : withUnit u r s = r := by
  cases u with
  | crc => rw [withUnit, ← show r.crc = s.crc from h]
  | enc =>
    obtain ⟨hst, hcrc⟩ := h
    rw [withUnit, ← hst, ← hcrc]
  | dec =>
    obtain ⟨hrx, hbuf, hlen⟩ := h
    rw [withUnit, ← hrx, ← hbuf, ← hlen]

theorem SameUnit.refl : ∀ (u : UnitId) (s : State), SameUnit u s s
  | .crc, _ => rfl
  | .enc, _ => ⟨rfl, rfl⟩
  | .dec, _ => ⟨rfl, rfl, rfl⟩

/-- Two states that each agree with a third on a unit's registers agree with each other. -/
theorem SameUnit.of_common {u : UnitId} {s t s' : State} (ht : SameUnit u s t) (hs : SameUnit u s s') :
    SameUnit u t s' := by
  cases u with
  | crc => exact Eq.trans hs (Eq.symm ht)
  | enc => exact ⟨hs.1.trans ht.1.symm, hs.2.trans ht.2.symm⟩
  | dec =>
    obtain ⟨hrx, hbuf, hlen⟩ := ht
    obtain ⟨hrx', hbuf', hlen'⟩ := hs
    exact ⟨hrx'.trans hrx.symm, hbuf'.trans hbuf.symm, hlen'.trans hlen.symm⟩

theorem sameUnit_moveUnit : ∀ (u : UnitId) (r t : State), SameUnit u t (moveUnit u r t)
  | .crc, _, _ => rfl
  | .enc, _, _ => ⟨rfl, rfl⟩
  | .dec, _, _ => ⟨rfl, rfl, rfl⟩

/-- A step of one unit alone leaves another one's registers as they are and says nothing for it. -/
theorem moveUnit_frame : ∀ {u v : UnitId}, v ≠ u → ∀ r t : State,
    SameUnit v r (moveUnit u r t) ∧ SilentOn v (moveUnit u r t).out
  | .crc, .crc, h, _, _ | .enc, .enc, h, _, _ | .dec, .dec, h, _, _ => absurd rfl h
  | .enc, .crc, _, _, _ | .dec, .crc, _, _, _ => ⟨rfl, rfl⟩
  | .crc, .enc, _, _, _ | .dec, .enc, _, _, _ => ⟨⟨rfl, rfl⟩, rfl⟩
  | .crc, .dec, _, _, _ | .enc, .dec, _, _, _ => ⟨⟨rfl, rfl, rfl⟩, rfl⟩

/-! ## Meanings that belong to one unit -/

/-- A meaning of one unit: that unit's registers decide what it answers, and it moves that unit alone. -/
def BelongsTo (u : UnitId) (f : State → Host.Outcome State Fault Refusal) : Prop :=
  ∀ s r, f (withUnit u r s) = andThen (f s) fun t => .next (moveUnit u r t)

namespace BelongsTo

section
variable {u : UnitId} {f : State → Host.Outcome State Fault Refusal} (hf : BelongsTo u f) {s t : State}
  (h : f s = .next t)
include hf h

/-- Over other registers of the other units it answers the same for its own. -/
theorem withUnit_next (r : State) : f (withUnit u r s) = .next (moveUnit u r t) := by
  rw [hf s r, h, andThen]

theorem next_eq_moveUnit : t = moveUnit u s t := by
  have hs := hf.withUnit_next h s
  rw [withUnit_self, h] at hs
  exact Host.Outcome.next.inj hs

/-- R60: its step leaves the registers and the outputs of another unit alone. -/
theorem frame {v : UnitId} (hv : v ≠ u) : SameUnit v s t ∧ SilentOn v t.out := by
  rw [hf.next_eq_moveUnit h]
  exact moveUnit_frame hv s t

/-- R60: where its unit is the same, it leads to the same registers of the unit, with the same outputs. -/
theorem next_of_sameUnit {r : State} (hr : SameUnit u s r) :
    ∃ t', f r = .next t' ∧ SameUnit u t t' ∧ t'.out = t.out := by
  refine ⟨moveUnit u r t, ?_, sameUnit_moveUnit u r t, (congrArg State.out (hf.next_eq_moveUnit h)).symm⟩
  rw [← hf.withUnit_next h r, withUnit_of_sameUnit hr]

end

end BelongsTo

theorem encSofWith_belongsTo (cfg : Config) : BelongsTo .enc (encSofWith cfg) := by
  rintro ⟨_, _ | _, _⟩ r <;> rfl

theorem encDataWith_belongsTo (cfg : Config) (d : Byte) : BelongsTo .enc (encDataWith cfg d) := by
  rintro ⟨_, _ | _, _⟩ r <;> rfl

theorem encEofWith_belongsTo (cfg : Config) : BelongsTo .enc (encEofWith cfg) := by
  rintro ⟨_, _ | _, _⟩ r <;> rfl

theorem rxAppendOrLong_belongsTo (cfg : Config) (d : Byte) : BelongsTo .dec (rxAppendOrLong cfg d) := by
  intro s r
  rcases rxAppendOrLong_cases cfg d s with ⟨hfull, e⟩ | ⟨hroom, e⟩ <;>
    rcases rxAppendOrLong_cases cfg d (withUnit .dec r s) with ⟨hfull', e'⟩ | ⟨hroom', e'⟩ <;> rw [e, e']
  · rfl
  · exact absurd hfull (Nat.not_lt.mpr hroom')
  · exact absurd hfull' (Nat.not_lt.mpr hroom)
  · rfl

theorem rxClose_belongsTo (cfg : Config) : BelongsTo .dec (rxClose cfg) := by
  intro s r
  have hlen : (withUnit .dec r s).len = s.len := rfl
  have hbuf : (withUnit .dec r s).buf = s.buf := rfl
  rw [rxClose, rxClose, hlen, hbuf]
  split
  · rfl
  · cases memRead cfg s.buf 0 s.len with
    | error f => rfl
    | ok body =>
      dsimp only
      split <;> rfl

/-- The dispatch reads the decoder's receive state, and each of its outcomes is the decoder's own. -/
theorem decRxWith_belongsTo (cfg : Config) (d : Byte) : BelongsTo .dec (decRxWith cfg d) := by
  intro s r
  have hrx : (withUnit .dec r s).rxState = s.rxState := rfl
  rw [decRxWith, decRxWith, hrx]
  cases s.rxState with
  | reset =>
    dsimp only
    split <;> rfl
  | inFrame =>
    dsimp only
    split
    · exact rxClose_belongsTo cfg s r
    · split
      · rfl
      · exact rxAppendOrLong_belongsTo cfg d s r
  | inEscape =>
    dsimp only
    split
    · exact rxAppendOrLong_belongsTo cfg d s r
    · rfl

theorem rxSymbolWith_belongsTo (cfg : Config) (x : Byte) : BelongsTo .dec (rxSymbolWith cfg x) := by
  intro s r
  rw [rxSymbolWith, rxSymbolWith, decRxWith_belongsTo cfg cfg.esc s r]
  cases decRxWith cfg cfg.esc s with
  | fault f => rfl
  | refused q => rfl
  | next t =>
    have hmoved : moveUnit .dec r t = withUnit .dec (moveUnit .dec r t) t := rfl
    simp only [andThen]
    rw [hmoved, decRxWith_belongsTo cfg x t]
    cases decRxWith cfg x t <;> rfl

/-- Every instruction but `RESET` is one unit's. -/
theorem exec_belongsTo_or_reset (i : Instr) :
    (∃ u, BelongsTo u (exec i) ∧ ∀ v, concerns v i = (v == u)) ∨ i = .reset := by
  cases i with
  | delim => exact .inl ⟨.dec, decRxWith_belongsTo _ _, fun _ => rfl⟩
  | esc => exact .inl ⟨.dec, decRxWith_belongsTo _ _, fun _ => rfl⟩
  | data b => exact .inl ⟨.dec, decRxWith_belongsTo _ b, fun _ => rfl⟩
  | decRx d => exact .inl ⟨.dec, decRxWith_belongsTo _ d, fun _ => rfl⟩
  | escDelim => exact .inl ⟨.dec, rxSymbolWith_belongsTo _ _, fun _ => rfl⟩
  | escEsc => exact .inl ⟨.dec, rxSymbolWith_belongsTo _ _, fun _ => rfl⟩
  | escOther x => exact .inl ⟨.dec, rxSymbolWith_belongsTo _ x, fun _ => rfl⟩
  | decEos => exact .inl ⟨.dec, fun _ _ => rfl, fun _ => rfl⟩
  | crcInit => exact .inl ⟨.crc, fun _ _ => rfl, fun _ => rfl⟩
  | crcByte d => exact .inl ⟨.crc, fun _ _ => rfl, fun _ => rfl⟩
  | crcBit d => exact .inl ⟨.crc, fun _ _ => rfl, fun _ => rfl⟩
  | crcGet => exact .inl ⟨.crc, fun _ _ => rfl, fun _ => rfl⟩
  | encSof => exact .inl ⟨.enc, encSofWith_belongsTo _, fun _ => rfl⟩
  | encData d => exact .inl ⟨.enc, encDataWith_belongsTo _ d, fun _ => rfl⟩
  | encEof => exact .inl ⟨.enc, encEofWith_belongsTo _, fun _ => rfl⟩
  | reset => exact .inr rfl

/-- An instruction that is not a unit's leaves the unit's registers and outputs alone. -/
theorem exec_frame {u : UnitId} {i : Instr} {s t : State} (hu : concerns u i = false) (h : exec i s = .next t) :
    SameUnit u s t ∧ SilentOn u t.out := by
  rcases exec_belongsTo_or_reset i with ⟨w, hw, hconcerns⟩ | rfl
  · exact hw.frame h (beq_eq_false_iff_ne.mp (hconcerns u ▸ hu))
  · cases hu

/-- `RESET` of two states that agree on a unit's registers gives states that agree on them. -/
theorem exec_reset_of_sameUnit {u : UnitId} {s s' : State} (hs : SameUnit u s s') :
    SameUnit u (resetDec (resetEnc Config.datvideo (resetCrc Config.datvideo s.quiet)))
      (resetDec (resetEnc Config.datvideo (resetCrc Config.datvideo s'.quiet))) := by
  cases u with
  | crc => exact Eq.refl Config.datvideo.crc.init
  | enc => exact ⟨rfl, rfl⟩
  | dec =>
    obtain ⟨-, hbuf, -⟩ := hs
    exact ⟨rfl, hbuf, rfl⟩

/-- An instruction of a unit answers the same for it wherever the unit is the same. -/
theorem exec_next_of_sameUnit {u : UnitId} {i : Instr} {s s' t : State} (hu : concerns u i = true)
    (hs : SameUnit u s s') (h : exec i s = .next t) :
    ∃ t', exec i s' = .next t' ∧ SameUnit u t t' ∧ t'.out = t.out := by
  rcases exec_belongsTo_or_reset i with ⟨w, hw, hconcerns⟩ | rfl
  · obtain rfl : u = w := eq_of_beq (hconcerns u ▸ hu)
    exact hw.next_of_sameUnit h hs
  · obtain rfl := Host.Outcome.next.inj h
    exact ⟨_, exec_reset s', exec_reset_of_sameUnit hs, rfl⟩

/-! ## Interleaving -/

/-- A unit's own part of a run, from any state that holds the unit as the run's first state does. -/
theorem runTokens_concerned {u : UnitId} {is : List Instr} {s t s' : State} {tr : List TraceEntry}
    (h : runTokens is s = .next (t, tr)) (hs : SameUnit u s s') :
    ∃ t', runTokens (is.filter (concerns u)) s' = .next (t', tr.filter fun e => concerns u e.instr)
      ∧ SameUnit u t t' := by
  induction is generalizing s s' tr with
  | nil =>
    cases h
    exact ⟨s', rfl, hs⟩
  | cons i is ih =>
    obtain ⟨v, tr', hi, his, rfl⟩ := (runWith_cons_next_iff ..).mp h
    cases hu : concerns u i with
    | true =>
      obtain ⟨v', hi', hv, hout⟩ := exec_next_of_sameUnit hu hs hi
      obtain ⟨t', hrun, ht⟩ := ih his hv
      refine ⟨t', ?_, ht⟩
      simp only [List.filter_cons, hu, if_true]
      exact (runWith_cons_next_iff ..).mpr ⟨v', _, hi', hrun, by rw [hout]⟩
    | false =>
      have hv : SameUnit u v s' := (exec_frame hu hi).1.of_common hs
      obtain ⟨t', hrun, ht⟩ := ih his hv
      refine ⟨t', ?_, ht⟩
      simpa only [List.filter_cons, hu, Bool.false_eq_true, if_false] using hrun

/-- Settles O48: by induction on the tokens, a token of the unit answers the same for it in both runs, and any other
token leaves it alone. -/
theorem interleavingDoesNotMatter : Obligations.InterleavingDoesNotMatter := by
  intro u is s t tr h
  obtain ⟨t', hrun, ht⟩ := runTokens_concerned h (SameUnit.refl u s)
  refine ⟨t', hrun, ?_, ?_, ?_⟩
  · rintro rfl
    exact ht
  · rintro rfl
    exact ht
  · rintro rfl
    exact ht

/-! ## Collected bytes -/

/-- Every byte of `s`'s buffer below `len` reads the same in `t`. -/
def KeepsCollected (s t : State) : Prop := ∀ a, a < s.len → t.buf.read a = s.buf.read a

theorem keepsCollected_of_buf_eq {s t : State} (h : t.buf = s.buf) : KeepsCollected s t := fun a _ => by rw [h]

/-- What receiving a byte does to the buffer: outside `Reset` it may store the byte at `len`. -/
theorem decRxWith_buf {cfg : Config} {d : Byte} {s t : State} (h : decRxWith cfg d s = .next t) :
    t.buf = s.buf ∨ (s.rxState ≠ .reset ∧ t.buf = s.buf.write s.len d) := by
  rcases decRxWith_next_cases h with
    ⟨-, -, rfl⟩ | ⟨-, -, rfl⟩ | ⟨-, -, -, rfl⟩ | ⟨-, -, -, body, -, ⟨-, rfl⟩ | ⟨-, rfl⟩⟩ | ⟨-, -, -, rfl⟩
      | ⟨hrx, ⟨-, rfl⟩ | ⟨-, rfl⟩⟩ | ⟨-, -, -, rfl⟩
  case inr.inr.inr.inr.inr.inl.inr =>
    refine .inr ⟨?_, rfl⟩
    rcases hrx with ⟨hrx, -⟩ | ⟨hrx, -⟩ <;> simp [hrx]
  all_goals exact .inl rfl

/-- A received byte is stored at or above `len`, so above every byte collected at a shorter length. -/
theorem read_decRxWith_of_lt {cfg : Config} {d : Byte} {s t : State} (h : decRxWith cfg d s = .next t) {a : Nat}
    (ha : s.rxState ≠ .reset → a < s.len) : t.buf.read a = s.buf.read a := by
  rcases decRxWith_buf h with hbuf | ⟨hrx, hbuf⟩
  · rw [hbuf]
  · rw [hbuf, Memory.read_write_other _ _ _ _ (Nat.ne_of_lt (ha hrx))]

/-- The `ESC` byte does not shorten the frame, unless it ends it or there is none. -/
theorem len_le_of_decRxWith_esc {cfg : Config} (hcfg : cfg.esc ≠ cfg.delim) {s t : State}
    (h : decRxWith cfg cfg.esc s = .next t) (hrx : t.rxState ≠ .reset) : s.len ≤ t.len := by
  rcases decRxWith_next_cases h with
    ⟨-, -, rfl⟩ | ⟨-, hd, -⟩ | ⟨-, hd, -⟩ | ⟨-, hd, -⟩ | ⟨-, -, -, rfl⟩
      | ⟨-, ⟨-, rfl⟩ | ⟨-, rfl⟩⟩ | ⟨-, -, -, rfl⟩
  · exact Nat.le_refl s.len
  · exact absurd hd hcfg
  · exact absurd hd hcfg
  · exact absurd hd hcfg
  · exact Nat.le_refl s.len
  · exact absurd rfl hrx
  · exact Nat.le_succ s.len
  · exact absurd rfl hrx

theorem decRxWith_keepsCollected {cfg : Config} {d : Byte} {s t : State} (h : decRxWith cfg d s = .next t) :
    KeepsCollected s t := fun _ ha => read_decRxWith_of_lt h fun _ => ha

/-- Each of the two bytes is stored, if at all, at or above the `len` before the symbol: after the first one the
frame is no shorter, or the decoder is in `Reset` and the second one is not stored. -/
theorem rxSymbolWith_keepsCollected {cfg : Config} (hcfg : cfg.esc ≠ cfg.delim) {x : Byte} {s u : State}
    (h : rxSymbolWith cfg x s = .next u) : KeepsCollected s u := by
  obtain ⟨t, v, h1, h2, rfl⟩ := (rxSymbolWith_eq_next_iff ..).mp h
  intro a ha
  have hsecond : v.buf.read a = t.buf.read a :=
    read_decRxWith_of_lt h2 fun hrx => Nat.lt_of_lt_of_le ha (len_le_of_decRxWith_esc hcfg h1 hrx)
  exact hsecond.trans (decRxWith_keepsCollected h1 a ha)

/-- R168: no instruction modifies a collected byte. -/
theorem exec_keepsCollected {i : Instr} {s t : State} (h : exec i s = .next t) : KeepsCollected s t := by
  rcases exec_receives_or_leavesBuffer i with ⟨d, hd⟩ | ⟨x, hx⟩ | hl
  · exact decRxWith_keepsCollected (hd ▸ h)
  · exact rxSymbolWith_keepsCollected (by decide) (hx ▸ h)
  · rcases hl.keeps_or_empties s t h with ⟨-, hbuf, -⟩ | ⟨hbuf, -⟩ <;> exact keepsCollected_of_buf_eq hbuf

/-- Settles O38: the collected bytes by what the decoder stores, the rest by the frame of each instruction. -/
theorem instructionsKeepToTheirUnit : Obligations.InstructionsKeepToTheirUnit := fun _ _ _ h =>
  ⟨exec_keepsCollected h, fun hu => exec_frame (u := .crc) hu h, fun hu => exec_frame (u := .enc) hu h,
    fun hu => exec_frame (u := .dec) hu h⟩

end Sys2Proof.Machine
end

section
/-! SUPPORT. The decoder and the encoder of input words: the opcodes of command words as a relation (30_encoding.md
R87), the two classes of wire bytes (R71, R73), and what each row of the opcode table matches. -/

namespace Sys2Proof

/-! ## Command words -/

/-- R87's table: the token that opcode `op` with argument `arg` spells. -/
inductive TokenOf : Byte → BitVec 4 → Instr → Prop where
  | crcInit (arg : Byte) : TokenOf arg 0x0#4 .crcInit
  | crcByte (arg : Byte) : TokenOf arg 0x1#4 (.crcByte arg)
  | crcBit (arg : Byte) : TokenOf arg 0x2#4 (.crcBit (arg.getLsbD 0))
  | crcGet (arg : Byte) : TokenOf arg 0x3#4 .crcGet
  | encSof (arg : Byte) : TokenOf arg 0x4#4 .encSof
  | encData (arg : Byte) : TokenOf arg 0x5#4 (.encData arg)
  | encEof (arg : Byte) : TokenOf arg 0x6#4 .encEof
  | decRx (arg : Byte) : TokenOf arg 0x8#4 (.decRx arg)
  | decEos (arg : Byte) : TokenOf arg 0x9#4 .decEos
  | reset (arg : Byte) : TokenOf arg 0xF#4 .reset

/-- R90's list: the opcodes that spell no token. -/
def reservedOps : List (BitVec 4) := [0x7#4, 0xA#4, 0xB#4, 0xC#4, 0xD#4, 0xE#4]

/-- The opcodes are those of R87's table and the reserved ones. -/
theorem tokenOf_or_reserved (op : BitVec 4) (arg : Byte) : (∃ i, TokenOf arg op i) ∨ op ∈ reservedOps := by
  have hops : op ∈ reservedOps ∨ op = 0x0#4 ∨ op = 0x1#4 ∨ op = 0x2#4 ∨ op = 0x3#4 ∨ op = 0x4#4 ∨ op = 0x5#4
      ∨ op = 0x6#4 ∨ op = 0x8#4 ∨ op = 0x9#4 ∨ op = 0xF#4 := by
    revert op
    decide
  rcases hops with h | rfl | rfl | rfl | rfl | rfl | rfl | rfl | rfl | rfl | rfl
  · exact .inr h
  · exact .inl ⟨_, .crcInit arg⟩
  · exact .inl ⟨_, .crcByte arg⟩
  · exact .inl ⟨_, .crcBit arg⟩
  · exact .inl ⟨_, .crcGet arg⟩
  · exact .inl ⟨_, .encSof arg⟩
  · exact .inl ⟨_, .encData arg⟩
  · exact .inl ⟨_, .encEof arg⟩
  · exact .inl ⟨_, .decRx arg⟩
  · exact .inl ⟨_, .decEos arg⟩
  · exact .inl ⟨_, .reset arg⟩

/-- A command word is its opcode and its argument. -/
theorem exists_commandWord (k : BitVec 12) : ∃ op arg, k = commandWord op arg :=
  ⟨commandOp k, commandArg k, (commandWord_op_arg k).symm⟩

/-- R90: a reserved opcode is refused by name. -/
theorem decodeCommand_reserved {op : BitVec 4} (h : op ∈ reservedOps) (arg : Byte) :
    decodeCommand (commandWord op arg) = .error (.reservedOpcode op) := by
  simp only [reservedOps, List.mem_cons, List.not_mem_nil, or_false] at h
  rcases h with rfl | rfl | rfl | rfl | rfl | rfl <;> simp [decodeCommand]

namespace TokenOf

section
variable {arg : Byte} {op : BitVec 4} {i : Instr} (h : TokenOf arg op i)
include h

/-- R87: the decoder reads the table's token. -/
theorem decodeCommand_eq : decodeCommand (commandWord op arg) = .ok i := by
  cases h <;> simp [decodeCommand]

theorem wf (cfg : Config) : i.wf cfg = true := by
  cases h <;> rfl

/-- The canonical word of a token has the token's opcode, and its argument where that is all of `arg`. -/
theorem encodeWith_eq (cfg : Config) : ∃ arg', encodeWith cfg i = .command (commandWord op arg')
    ∧ (op ∈ [0x1#4, 0x5#4, 0x8#4] → arg' = arg) := by
  cases h
  case crcByte | encData | decRx => exact ⟨arg, rfl, fun _ => rfl⟩
  all_goals exact ⟨_, rfl, fun hop => absurd hop (by decide)⟩

end

/-- R87: a token without an argument has any `arg`, and its canonical word has none of it. -/
theorem of_argless {op : BitVec 4} (h : op ∈ [0x0#4, 0x3#4, 0x4#4, 0x6#4, 0x9#4, 0xF#4]) (cfg : Config) :
    ∃ i, (∀ arg, TokenOf arg op i) ∧ encodeWith cfg i = .command (commandWord op 0x00#8) := by
  simp only [List.mem_cons, List.not_mem_nil, or_false] at h
  rcases h with rfl | rfl | rfl | rfl | rfl | rfl
  · exact ⟨_, .crcInit, rfl⟩
  · exact ⟨_, .crcGet, rfl⟩
  · exact ⟨_, .encSof, rfl⟩
  · exact ⟨_, .encEof, rfl⟩
  · exact ⟨_, .decEos, rfl⟩
  · exact ⟨_, .reset, rfl⟩

end TokenOf

/-- A command word that decodes spells the token of its opcode. -/
theorem tokenOf_of_decodeCommand {op : BitVec 4} {arg : Byte} {i : Instr}
    (h : decodeCommand (commandWord op arg) = .ok i) : TokenOf arg op i := by
  rcases tokenOf_or_reserved op arg with ⟨j, hj⟩ | hres
  · obtain rfl : j = i := Except.ok.inj (hj.decodeCommand_eq.symm.trans h)
    exact hj
  · rw [decodeCommand_reserved hres] at h
    cases h

/-! ## Wire bytes and symbols -/

section
variable {cfg : Config} {b : Byte}

theorem decodeWire_esc (h : cfg.esc ≠ cfg.delim) : decodeWire cfg cfg.esc = .esc := by
  rw [decodeWire, if_neg h, if_pos rfl]

theorem decodeWire_data (hd : b ≠ cfg.delim) (he : b ≠ cfg.esc) : decodeWire cfg b = .data b := by
  rw [decodeWire, if_neg hd, if_neg he]

theorem decodeEscaped_esc (h : cfg.esc ≠ cfg.delim) : decodeEscaped cfg cfg.esc = .escEsc := by
  rw [decodeEscaped, if_neg h, if_pos rfl]

theorem decodeEscaped_other (hd : b ≠ cfg.delim) (he : b ≠ cfg.esc) : decodeEscaped cfg b = .escOther b := by
  rw [decodeEscaped, if_neg hd, if_neg he]

end

section
variable (cfg : Config) (b : Byte)

@[simp] theorem decodeWire_delim : decodeWire cfg cfg.delim = .delim := if_pos rfl

@[simp] theorem decodeEscaped_delim : decodeEscaped cfg cfg.delim = .escDelim := if_pos rfl

/-- The canonical word of a wire byte's class is the byte. -/
@[simp] theorem encodeWith_decodeWire : encodeWith cfg (decodeWire cfg b) = .wire b := by
  unfold decodeWire
  split
  · simp [encodeWith, *]
  · split <;> simp [encodeWith, *]

/-- The canonical word of a symbol is its two bytes. -/
@[simp] theorem encodeWith_decodeEscaped :
    encodeWith cfg (decodeEscaped cfg b) = .symbol (symbolWord cfg.esc b) := by
  unfold decodeEscaped
  split
  · simp [encodeWith, *]
  · split <;> simp [encodeWith, *]

theorem decodeWire_wf : (decodeWire cfg b).wf cfg = true := by
  unfold decodeWire
  split
  · rfl
  · split <;> simp [Instr.wf, *]

theorem decodeEscaped_wf : (decodeEscaped cfg b).wf cfg = true := by
  unfold decodeEscaped
  split
  · rfl
  · split <;> simp [Instr.wf, *]

end

/-- R73: `ESC` announces a symbol, and no other byte does. -/
theorem decodeWith_symbolWord_esc (cfg : Config) (x : Byte) :
    decodeWith cfg (.symbol (symbolWord cfg.esc x)) = .ok (decodeEscaped cfg x) := by
  simp [decodeWith]

theorem decodeWith_symbol_of_ne {cfg : Config} {w : BitVec 16} (h : symbolFirst w ≠ cfg.esc) :
    decodeWith cfg (.symbol w) = .error (.notASymbol w) := if_neg h

/-! ## Round trip -/

theorem Config.esc_ne_delim_of_wf {cfg : Config} (h : cfg.wf = true) : cfg.esc ≠ cfg.delim := by
  simp only [Config.wf, Bool.and_eq_true, bne_iff_ne] at h
  obtain ⟨⟨hne, -⟩, -⟩ := h
  exact hne.symm

/-- Settles O2: the wire rows by the order of their tests, the command rows by R87's table. -/
theorem decodeInvertsEncode : Obligations.DecodeInvertsEncode := by
  intro cfg i hcfg hwf
  have hne := Config.esc_ne_delim_of_wf hcfg
  cases i with
  | delim => exact congrArg Except.ok (decodeWire_delim cfg)
  | esc => exact congrArg Except.ok (decodeWire_esc hne)
  | data b =>
    obtain ⟨hd, he⟩ : b ≠ cfg.delim ∧ b ≠ cfg.esc := by simpa [Instr.wf] using hwf
    exact congrArg Except.ok (decodeWire_data hd he)
  | escDelim => exact (decodeWith_symbolWord_esc cfg _).trans (congrArg _ (decodeEscaped_delim cfg))
  | escEsc => exact (decodeWith_symbolWord_esc cfg _).trans (congrArg _ (decodeEscaped_esc hne))
  | escOther x =>
    obtain ⟨hd, he⟩ : x ≠ cfg.delim ∧ x ≠ cfg.esc := by simpa [Instr.wf] using hwf
    exact (decodeWith_symbolWord_esc cfg x).trans (congrArg _ (decodeEscaped_other hd he))
  | crcInit => exact (TokenOf.crcInit 0x00#8).decodeCommand_eq
  | crcByte d => exact (TokenOf.crcByte d).decodeCommand_eq
  | crcBit d =>
    cases d with
    | false => exact (TokenOf.crcBit 0x00#8).decodeCommand_eq
    | true => exact (TokenOf.crcBit 0x01#8).decodeCommand_eq
  | crcGet => exact (TokenOf.crcGet 0x00#8).decodeCommand_eq
  | encSof => exact (TokenOf.encSof 0x00#8).decodeCommand_eq
  | encData d => exact (TokenOf.encData d).decodeCommand_eq
  | encEof => exact (TokenOf.encEof 0x00#8).decodeCommand_eq
  | decRx d => exact (TokenOf.decRx d).decodeCommand_eq
  | decEos => exact (TokenOf.decEos 0x00#8).decodeCommand_eq
  | reset => exact (TokenOf.reset 0x00#8).decodeCommand_eq

/-- Settles O3: a wire byte and a symbol carry every bit of their instruction, a command its token's argument. -/
theorem decodeIgnoresOnlyUnusedBits : Obligations.DecodeIgnoresOnlyUnusedBits := by
  refine ⟨fun w i h => ?_, fun op a b hop => ?_, fun a d => ⟨(TokenOf.crcBit a).decodeCommand_eq, rfl⟩⟩
  · cases w with
    | wire b =>
      obtain rfl : decodeWire Config.datvideo b = i := Except.ok.inj h
      have henc : encode (decodeWire Config.datvideo b) = .wire b := encodeWith_decodeWire _ b
      exact ⟨decodeWire_wf _ b, by rw [henc], fun _ => henc, nofun⟩
    | symbol w =>
      by_cases hesc : symbolFirst w = Config.datvideo.esc
      · obtain rfl : decodeEscaped Config.datvideo (symbolSecond w) = i := Except.ok.inj ((if_pos hesc).symm.trans h)
        have henc : encode (decodeEscaped Config.datvideo (symbolSecond w)) = .symbol w := by
          rw [encode, encodeWith_decodeEscaped, ← hesc, symbolWord_first_second]
        exact ⟨decodeEscaped_wf _ _, by rw [henc], fun _ => henc, nofun⟩
      · cases (decodeWith_symbol_of_ne hesc).symm.trans h
    | command k =>
      obtain ⟨op, arg, rfl⟩ := exists_commandWord k
      have htok : TokenOf arg op i := tokenOf_of_decodeCommand h
      obtain ⟨arg', henc, hfull⟩ := htok.encodeWith_eq Config.datvideo
      refine ⟨htok.wf _, by rw [encode, henc]; rfl, fun hk => absurd rfl hk, fun k hk => ?_⟩
      obtain rfl := InputWord.command.inj hk
      rw [commandOp_commandWord, encode, henc]
      exact ⟨fun hop => by rw [hfull hop], arg', rfl⟩
  · obtain ⟨i, htok, henc⟩ := TokenOf.of_argless hop Config.datvideo
    have hdec (arg : Byte) : decode (.command (commandWord op arg)) = .ok i := (htok arg).decodeCommand_eq
    exact ⟨(hdec a).trans (hdec b).symm, i, hdec a, henc⟩

end Sys2Proof
end

section
/-! SUPPORT. The opcode table as data (30_encoding.md section 4): what each mask leaves of a word, and the first
matching row of every word. -/

namespace Sys2Proof

/-! ## Masks -/

/-- A mask of every bit compares the whole word. -/
theorem toNat_and_fullMask_beq {n : Nat} (w p : BitVec n) :
    (w.toNat &&& (BitVec.allOnes n).toNat == p.toNat) = (w == p) := by
  rw [← BitVec.toNat_and, BitVec.and_allOnes, Bool.eq_iff_iff, beq_iff_eq, beq_iff_eq, BitVec.toNat_inj]

/-- A mask of the upper bits leaves the upper part of a word, with zeros below. -/
theorem toNat_append_and_highMask {n m : Nat} (a : BitVec n) (b : BitVec m) :
    (a ++ b).toNat &&& (BitVec.allOnes n ++ 0#m).toNat = (a ++ 0#m).toNat := by
  rw [← BitVec.toNat_and, BitVec.and_append, BitVec.and_allOnes, BitVec.and_zero]

/-- A mask of the upper bits compares the upper part. -/
theorem toNat_append_and_highMask_beq {n m : Nat} (a p : BitVec n) (b : BitVec m) :
    ((a ++ b).toNat &&& (BitVec.allOnes n ++ 0#m).toNat == (p ++ 0#m).toNat) = (a == p) := by
  rw [toNat_append_and_highMask, Bool.eq_iff_iff, beq_iff_eq, beq_iff_eq, BitVec.toNat_inj, BitVec.append_left_inj]

/-! ## The row of each format's words -/

/-- R71: a wire byte's first row is that of its class. -/
theorem firstRow_wire (b : Byte) : firstRow (.wire b) = some (opcodeRow (decodeWire Config.datvideo b)) := by
  by_cases hd : b = 0x7E#8
  · subst hd
    rfl
  by_cases he : b = 0x7D#8
  · subst he
    rfl
  have hdelim : (b.toNat &&& 0xFF == 0x7E) = false :=
    (toNat_and_fullMask_beq b 0x7E#8).trans (beq_false_of_ne hd)
  have hesc : (b.toNat &&& 0xFF == 0x7D) = false :=
    (toNat_and_fullMask_beq b 0x7D#8).trans (beq_false_of_ne he)
  rw [decodeWire_data hd he]
  simp [firstRow, opcodeTable, opcodeRow, OpcodeRow.matchesWord, InputWord.format, InputWord.bits, hdelim, hesc]

/-- Two bytes that are not `7D y` do not match the row of `7D y`. -/
theorem symbolWord_fullMask_beq_eq_false {a x y : Byte} (h : a = 0x7D#8 → x ≠ y) :
    ((symbolWord a x).toNat &&& 0xFFFF == (symbolWord 0x7D#8 y).toNat) = false := by
  refine (toNat_and_fullMask_beq (symbolWord a x) (symbolWord 0x7D#8 y)).trans (beq_false_of_ne fun heq => ?_)
  have hfirst : a = 0x7D#8 := by simpa using congrArg symbolFirst heq
  have hsecond : x = y := by simpa using congrArg symbolSecond heq
  exact h hfirst hsecond

/-- R73: two bytes that are no legal escape match the row of `ESC other` or none, by their first byte. -/
theorem firstRow_symbolWord_of_not_legal {a x : Byte} (h : a = 0x7D#8 → x ≠ 0x7E#8 ∧ x ≠ 0x7D#8) :
    firstRow (.symbol (symbolWord a x)) = if a = 0x7D#8 then some (opcodeRow (.escOther x)) else none := by
  have hdelim : ((symbolWord a x).toNat &&& 0xFFFF == 0x7D7E) = false :=
    symbolWord_fullMask_beq_eq_false fun ha => (h ha).1
  have hesc : ((symbolWord a x).toNat &&& 0xFFFF == 0x7D7D) = false :=
    symbolWord_fullMask_beq_eq_false fun ha => (h ha).2
  have hother : ((symbolWord a x).toNat &&& 0xFF00 == 0x7D00) = true ↔ a = 0x7D#8 :=
    (Bool.eq_iff_iff.mp (toNat_append_and_highMask_beq a 0x7D#8 x)).trans beq_iff_eq
  simp only [← hother]
  cases htest : (symbolWord a x).toNat &&& 0xFF00 == 0x7D00 <;>
    simp [firstRow, opcodeTable, opcodeRow, OpcodeRow.matchesWord, InputWord.format, InputWord.bits, hdelim, hesc,
      htest]

/-- R73: the first row of `ESC x` is that of its symbol. -/
theorem firstRow_symbolWord_esc (x : Byte) :
    firstRow (.symbol (symbolWord 0x7D#8 x)) = some (opcodeRow (decodeEscaped Config.datvideo x)) := by
  by_cases hd : x = 0x7E#8
  · subst hd
    rfl
  by_cases he : x = 0x7D#8
  · subst he
    rfl
  rw [firstRow_symbolWord_of_not_legal fun _ => ⟨hd, he⟩, if_pos rfl, decodeEscaped_other hd he]

/-- R87: the rows of command words test the opcode only. -/
theorem firstRow_commandWord (op : BitVec 4) (arg : Byte) :
    firstRow (.command (commandWord op arg)) = firstRow (.command (commandWord op 0x00#8)) := by
  have hmask : ∀ r ∈ opcodeTable, r.format = .K → r.mask = 0xF00 := by decide
  have hbits : (commandWord op arg).toNat &&& 0xF00 = (commandWord op 0x00#8).toNat &&& 0xF00 :=
    (toNat_append_and_highMask op arg).trans (toNat_append_and_highMask op 0x00#8).symm
  refine List.find?_congr fun r hr => ?_
  by_cases hk : r.format = .K
  · simp [OpcodeRow.matchesWord, InputWord.bits, hmask r hr hk, hbits, hk, InputWord.format]
  · simp [OpcodeRow.matchesWord, InputWord.format, Ne.symm hk]

theorem TokenOf.firstRow_eq {arg : Byte} {op : BitVec 4} {i : Instr} (h : TokenOf arg op i) :
    firstRow (.command (commandWord op arg)) = some (opcodeRow i) := by
  rw [firstRow_commandWord]
  cases h <;> rfl

/-- R90: a reserved command word matches no row. -/
theorem firstRow_reserved {op : BitVec 4} (h : op ∈ reservedOps) (arg : Byte) :
    firstRow (.command (commandWord op arg)) = none := by
  have hnone : ∀ o ∈ reservedOps, firstRow (.command (commandWord o 0x00#8)) = none := by decide
  rw [firstRow_commandWord, hnone op h]

/-- Settles O4: format by format, the word's first row is that of its class, of its symbol or of its opcode. -/
theorem decodeAgreesWithOpcodeTable : Obligations.DecodeAgreesWithOpcodeTable := by
  intro w
  cases w with
  | wire b => exact firstRow_wire b
  | symbol w =>
    obtain ⟨a, x, rfl⟩ : ∃ a x, w = symbolWord a x := ⟨_, _, (symbolWord_first_second w).symm⟩
    by_cases ha : a = 0x7D#8
    · subst ha
      have hdec : decode (.symbol (symbolWord 0x7D#8 x)) = .ok (decodeEscaped Config.datvideo x) :=
        decodeWith_symbolWord_esc Config.datvideo x
      rw [firstRow_symbolWord_esc, hdec]
    · have hdec : decode (.symbol (symbolWord a x)) = .error (.notASymbol (symbolWord a x)) :=
        decodeWith_symbol_of_ne (by rwa [symbolFirst_symbolWord])
      rw [firstRow_symbolWord_of_not_legal fun h => absurd h ha, if_neg ha, hdec]
  | command k =>
    obtain ⟨op, arg, rfl⟩ := exists_commandWord k
    rcases tokenOf_or_reserved op arg with ⟨i, htok⟩ | hres
    · have hdec : decode (.command (commandWord op arg)) = .ok i := htok.decodeCommand_eq
      rw [htok.firstRow_eq, hdec]
    · have hdec : decode (.command (commandWord op arg)) = .error (.reservedOpcode op) :=
        decodeCommand_reserved hres arg
      rw [firstRow_reserved hres, hdec]

/-- Settles O1: each word is evaluated. -/
theorem decodesWrittenWords : Obligations.DecodesWrittenWords := by
  unfold Obligations.DecodesWrittenWords
  decide

end Sys2Proof
end

section
/-! SUPPORT. What a step does with its next token (30_encoding.md R85): it is consumed, a word that decodes runs, and
a word that does not is refused (R90). -/

namespace Sys2Proof.Machine

/-! ## Fetching -/

section
variable {s : State} {rest : List Input}

theorem step_resetUnit {u : UnitId} (hs : s.input = .resetUnit u :: rest) :
    step s = .next (resetUnit u (s.withInput rest)) := by
  rw [step, fetch, fetchWith, hs]

theorem step_word_of_ok {w : InputWord} {i : Instr} (hs : s.input = .word w :: rest) (hw : decode w = .ok i) :
    step s = exec i (s.withInput rest) := by
  rw [decode] at hw
  simp only [step, fetch, fetchWith, hs, hw]

theorem step_word_of_error {w : InputWord} {r : DecodeReject} (hs : s.input = .word w :: rest)
    (hw : decode w = .error r) : step s = .refused (refusalOf r) := by
  rw [decode] at hw
  simp only [step, fetch, fetchWith, hs, hw]

end

/-! ## The waiting tokens -/

theorem moveUnit_input : ∀ (u : UnitId) (r t : State), (moveUnit u r t).input = r.input
  | .crc, _, _ => rfl
  | .enc, _, _ => rfl
  | .dec, _, _ => rfl

/-- No instruction reads or takes a further token. -/
theorem exec_input {i : Instr} {s t : State} (h : exec i s = .next t) : t.input = s.input := by
  rcases exec_belongsTo_or_reset i with ⟨u, hu, -⟩ | rfl
  · rw [hu.next_eq_moveUnit h, moveUnit_input]
  · obtain rfl := Host.Outcome.next.inj h
    rfl

theorem resetUnit_input : ∀ (u : UnitId) (s : State), (resetUnit u s).input = s.input
  | .crc, _ => rfl
  | .enc, _ => rfl
  | .dec, _ => rfl

/-- Settles O6: the fetched token is the decoded instruction. -/
theorem stepRunsDecodedInstruction : Obligations.StepRunsDecodedInstruction := fun _ _ _ _ hs hw =>
  step_word_of_ok hs hw

/-- Settles O8: the token is consumed before the unit reset or the instruction runs, and neither takes another. -/
theorem stepTakesOneToken : Obligations.StepTakesOneToken := by
  intro s t x rest hs h
  cases x with
  | resetUnit u =>
    obtain rfl := Host.Outcome.next.inj ((step_resetUnit hs).symm.trans h)
    rw [resetUnit_input, withInput_input]
  | word w =>
    cases hw : decode w with
    | ok i =>
      rw [step_word_of_ok hs hw] at h
      rw [exec_input h, withInput_input]
    | error r =>
      rw [step_word_of_error hs hw] at h
      cases h

/-- Settles O5: R87's table and R90's list divide the opcodes. -/
theorem reservedCommandWordsAreRefused : Obligations.ReservedCommandWordsAreRefused := by
  intro k s rest
  obtain ⟨op, arg, rfl⟩ := exists_commandWord k
  rw [commandOp_commandWord]
  refine ⟨fun hres => ?_, fun hop => ?_⟩
  · exact step_word_of_error (w := .command _) (withInput_input s _) (decodeCommand_reserved hres arg)
  · rcases tokenOf_or_reserved op arg with ⟨i, htok⟩ | hres
    · exact ⟨i, htok.decodeCommand_eq⟩
    · exact absurd hres hop

end Sys2Proof.Machine
end

section
/-! SUPPORT. The bytes of a frame (30_encoding.md section 2, 41_stuff_encoder.md section 4): the stuffed body between two
delimiters, its length, and its parse into wire symbols. -/

namespace Sys2Proof.Machine

/-! ## The stuffed body -/

/-- R70, R76: between its delimiters a frame is the stuffed payload and checksum. -/
theorem frameBytes_eq (cfg : Config) (p : List Byte) :
    frameBytes cfg p = [cfg.delim] ++ (frameBody cfg p).flatMap (stuffed cfg) ++ [cfg.delim] := by
  simp [frameBytes, frameBody, checksumBytes]

/-- This hardware's configuration is well formed, so every chunk has its frame (R11, R130). -/
theorem encodeFrame_datvideo (p : List Byte) :
    encodeFrame Config.datvideo p = .next (frameBytes Config.datvideo p) := whenWellFormed_of_wf (by decide) _

theorem frameBody_length (cfg : Config) (p : List Byte) : (frameBody cfg p).length = p.length + 2 := by
  simp [frameBody, checksumBytes]

/-- R72: a reserved byte takes one more wire byte than another. -/
theorem flatMap_stuffed_length (cfg : Config) (bs : List Byte) :
    (bs.flatMap (stuffed cfg)).length = bs.length + bs.countP (reserved cfg) := by
  induction bs with
  | nil => rfl
  | cons b bs ih =>
    rw [List.flatMap_cons, List.length_append, ih, List.length_cons, List.countP_cons]
    have hlen : (stuffed cfg b).length = 1 + if reserved cfg b = true then 1 else 0 := by
      cases hb : reserved cfg b <;> simp [stuffed, hb]
    omega

/-- R79, under every configuration. -/
theorem frameBytes_length (cfg : Config) (p : List Byte) :
    (frameBytes cfg p).length = p.length + 4 + (frameBody cfg p).countP (reserved cfg) := by
  rw [frameBytes_eq, List.length_append, List.length_append, flatMap_stuffed_length, frameBody_length,
    List.length_singleton]
  omega

/-- Settles O26: the count of reserved bytes is between 0 and the length of the body. -/
theorem frameLengthCountsReservedBytes : Obligations.FrameLengthCountsReservedBytes := by
  refine ⟨fun p => ⟨_, encodeFrame_datvideo p, ?_⟩, ?_⟩
  · have hlen := frameBytes_length Config.datvideo p
    have hcount : (frameBody Config.datvideo p).countP (reserved Config.datvideo) ≤ p.length + 2 :=
      frameBody_length Config.datvideo p ▸ List.countP_le_length
    exact ⟨hlen, by omega, by omega⟩
  · rw [encodeFrame_datvideo]
    exact congrArg _ (by decide)

/-! ## Wire symbols -/

/-- The wire symbol by which an encoder sends a body byte (R72, R73). -/
def bodySymbol (cfg : Config) (b : Byte) : Instr :=
  if reserved cfg b then decodeEscaped cfg b else decodeWire cfg b

theorem reserved_eq_true_iff (cfg : Config) (b : Byte) : reserved cfg b = true ↔ b = cfg.delim ∨ b = cfg.esc := by
  simp [reserved]

/-- R73: `ESC` takes the byte after it. -/
theorem parseSymbols_esc_cons (cfg : Config) (x : Byte) (bs : List Byte) :
    parseSymbols cfg (cfg.esc :: x :: bs) = (parseSymbols cfg bs).map (decodeEscaped cfg x :: ·) := by
  rw [parseSymbols, if_pos rfl]

/-- R73: every byte but `ESC` stands alone, the last one too. -/
theorem parseSymbols_cons_of_ne {cfg : Config} {b : Byte} (h : b ≠ cfg.esc) (bs : List Byte) :
    parseSymbols cfg (b :: bs) = (parseSymbols cfg bs).map (decodeWire cfg b :: ·) := by
  cases bs with
  | nil => simp [parseSymbols, h]
  | cons x bs => rw [parseSymbols, if_neg h]

/-- The bytes of a stuffed byte are one complete symbol. -/
theorem parseSymbols_stuffed_append (cfg : Config) (b : Byte) (bs : List Byte) :
    parseSymbols cfg (stuffed cfg b ++ bs) = (parseSymbols cfg bs).map (bodySymbol cfg b :: ·) := by
  by_cases hb : reserved cfg b = true
  · rw [stuffed, bodySymbol, if_pos hb, if_pos hb]
    exact parseSymbols_esc_cons cfg b bs
  · rw [stuffed, bodySymbol, if_neg hb, if_neg hb]
    exact parseSymbols_cons_of_ne (fun he => hb ((reserved_eq_true_iff cfg b).mpr (.inr he))) bs

/-- R140: stuffing a body and parsing it gives one symbol a byte. -/
theorem parseSymbols_flatMap_stuffed (cfg : Config) (bs : List Byte) :
    parseSymbols cfg (bs.flatMap (stuffed cfg)) = some (bs.map (bodySymbol cfg)) := by
  induction bs with
  | nil => rfl
  | cons b bs ih => rw [List.flatMap_cons, parseSymbols_stuffed_append, ih]; rfl

/-- A body byte's symbol is a literal or a legal escape, and contributes the byte. -/
theorem bodySymbol_legal_and_contributes (cfg : Config) (b : Byte) :
    legalBodySymbol (bodySymbol cfg b) = true ∧ (bodySymbol cfg b).contributes cfg = some b := by
  unfold bodySymbol
  split <;> rename_i hb <;> rw [reserved_eq_true_iff] at hb
  · unfold decodeEscaped
    split
    · exact ⟨rfl, congrArg some (Eq.symm ‹_›)⟩
    · have he : b = cfg.esc := hb.resolve_left ‹_›
      rw [if_pos he]
      exact ⟨rfl, congrArg some he.symm⟩
  · rw [decodeWire_data (fun h => hb (.inl h)) (fun h => hb (.inr h))]
    exact ⟨rfl, rfl⟩

/-- Settles O27: the symbols are those of the body's bytes, one by one. -/
theorem frameBodyParsesIntoLegalSymbols : Obligations.FrameBodyParsesIntoLegalSymbols := by
  intro p
  refine ⟨_, _, (encodeFrame_datvideo p).trans (congrArg _ (frameBytes_eq Config.datvideo p)),
    parseSymbols_flatMap_stuffed Config.datvideo (frameBody Config.datvideo p), ?_, ?_⟩
  · intro i hi
    obtain ⟨b, -, rfl⟩ := List.mem_map.mp hi
    exact (bodySymbol_legal_and_contributes _ b).1
  · have hcontributes : Instr.contributes Config.datvideo ∘ bodySymbol Config.datvideo = some :=
      funext fun b => (bodySymbol_legal_and_contributes _ b).2
    rw [List.filterMap_map, hcontributes, List.filterMap_some]

end Sys2Proof.Machine
end

section
/-! SUPPORT. The two-byte wire symbols as two received bytes (30_encoding.md section 4, R73): when a received byte
completes, which of two has an event, and a symbol inside a frame. -/

namespace Sys2Proof.Machine

/-! ## Completion (R150) -/

/-- An append with its size test completes. -/
theorem rxAppendOrLong_completes (cfg : Config) (d : Byte) (s : State) :
    ∃ t, rxAppendOrLong cfg d s = .next t := by
  rcases rxAppendOrLong_cases cfg d s with ⟨-, h⟩ | ⟨-, h⟩ <;> exact ⟨_, h⟩

/-- A close completes in a good state: every byte it reads is in range and collected. -/
theorem rxClose_completes {cfg : Config} {s : State} (hg : GoodState cfg s) : ∃ t, rxClose cfg s = .next t := by
  obtain ⟨body, hbody⟩ := memRead_total cfg s.buf 0 s.len fun i hi => by
    rw [Nat.zero_add]
    exact ⟨Nat.lt_of_lt_of_le hi hg.lenBound, hg.collected i hi⟩
  rcases rxClose_cases cfg s with ⟨-, h⟩ | ⟨-, f, hf, -⟩ | ⟨-, _, -, -, h⟩ | ⟨-, _, -, -, h⟩
  · exact ⟨_, h⟩
  · rw [hbody] at hf
    cases hf
  · exact ⟨_, h⟩
  · exact ⟨_, h⟩

/-- R150: every byte completes in a good state. -/
theorem decRxWith_completes {cfg : Config} {s : State} (hg : GoodState cfg s) (d : Byte) :
    ∃ t, decRxWith cfg d s = .next t := by
  unfold decRxWith
  cases s.rxState with
  | reset => dsimp only; split <;> exact ⟨_, rfl⟩
  | inFrame =>
    dsimp only
    split
    · exact rxClose_completes hg
    · split
      · exact ⟨_, rfl⟩
      · exact rxAppendOrLong_completes cfg d s
  | inEscape =>
    dsimp only
    split
    · exact rxAppendOrLong_completes cfg d s
    · exact ⟨_, rfl⟩

/-- A symbol completes in a good state: its first byte leaves one. -/
theorem rxSymbolWith_completes {cfg : Config} {s : State} (hg : GoodState cfg s) (x : Byte) :
    ∃ u, rxSymbolWith cfg x s = .next u := by
  obtain ⟨t, ht⟩ := decRxWith_completes hg cfg.esc
  obtain ⟨u, hu⟩ := decRxWith_completes (hg.of_decRxWith ht) x
  exact ⟨_, rxSymbolWith_next ht hu⟩

/-! ## Events -/

/-- A step with an event ends the frame. -/
theorem decRxWith_event_none_or_reset {cfg : Config} {d : Byte} {s t : State} (h : decRxWith cfg d s = .next t) :
    t.out.event = .none ∨ t.rxState = .reset := by
  rcases decRxWith_next_cases h with
    ⟨-, -, rfl⟩ | ⟨-, -, rfl⟩ | ⟨-, -, -, rfl⟩ | ⟨-, -, -, body, -, ⟨-, rfl⟩ | ⟨-, rfl⟩⟩ | ⟨-, -, -, rfl⟩
      | ⟨-, ⟨-, rfl⟩ | ⟨-, rfl⟩⟩ | ⟨-, -, -, rfl⟩
  · exact .inl rfl
  · exact .inl rfl
  · exact .inr rfl
  · exact .inr rfl
  · exact .inr rfl
  · exact .inl rfl
  · exact .inr rfl
  · exact .inl rfl
  · exact .inr rfl

/-- R151, R152: no event comes from a byte received in `Reset`. -/
theorem decRxWith_event_of_reset {cfg : Config} {d : Byte} {s t : State} (hrx : s.rxState = .reset)
    (h : decRxWith cfg d s = .next t) : t.out.event = .none := by
  rw [decRxWith, hrx] at h
  dsimp only at h
  split at h <;> obtain rfl := Host.Outcome.next.inj h <;> rfl

/-- Of two bytes received one after the other at most one has an event. -/
theorem decRxWith_twice_event_none {cfg : Config} {c d : Byte} {s t u : State} (h1 : decRxWith cfg c s = .next t)
    (h2 : decRxWith cfg d t = .next u) : t.out.event = .none ∨ u.out.event = .none :=
  (decRxWith_event_none_or_reset h1).imp_right fun hrx => decRxWith_event_of_reset hrx h2

theorem Event.orElse_eq_ite (e1 e2 : Event) : Event.orElse e1 e2 = if e2 = .none then e1 else e2 := by
  cases e2 <;> rfl

/-! ## Symbols as instructions -/

/-- R73: each of the three symbols is `ESC` and its second byte received. -/
theorem exec_decodeEscaped (x : Byte) (s : State) :
    exec (decodeEscaped Config.datvideo x) s = rxSymbolWith Config.datvideo x s := by
  unfold decodeEscaped
  split
  · subst x
    rfl
  · split
    · subst x
      rfl
    · rfl

/-- Settles O39: the symbol's step is the two bytes' steps, and in a good state each of them completes. -/
theorem symbolsAreTwoReceivedBytes : Obligations.SymbolsAreTwoReceivedBytes := by
  refine ⟨fun s t u x h1 h2 => ⟨decRxWith_twice_event_none h1 h2, ?_⟩, fun s hg =>
    ⟨rxSymbolWith_completes hg _, rxSymbolWith_completes hg _, rxSymbolWith_completes hg⟩⟩
  rw [exec_decodeEscaped, rxSymbolWith_next (cfg := Config.datvideo) h1 h2, Event.orElse_eq_ite]

/-! ## Symbols inside a frame -/

/-- R154: `ESC` inside a frame. -/
theorem decRxWith_esc_of_inFrame {cfg : Config} (hne : cfg.esc ≠ cfg.delim) {s : State} (hs : s.rxState = .inFrame) :
    decRxWith cfg cfg.esc s = .next { s.quiet with rxState := .inEscape } := by
  simp only [decRxWith, hs, if_neg hne, if_pos, rxEscape]

/-- R157: an escaped reserved byte is appended when there is room. -/
theorem decRxWith_reserved_of_inEscape {cfg : Config} {x : Byte} (hx : x = cfg.delim ∨ x = cfg.esc) {s : State}
    (hs : s.rxState = .inEscape) (hroom : s.len + 1 ≤ cfg.maxFrame) :
    decRxWith cfg x s
      = .next { s.quiet with buf := s.buf.write (appendIndex s) x, len := s.len + 1, rxState := .inFrame } := by
  simp only [decRxWith, hs, if_pos hx]
  rcases rxAppendOrLong_cases cfg x s with ⟨hfull, -⟩ | ⟨-, h⟩
  · exact absurd hroom (Nat.not_le.mpr hfull)
  · exact h

/-- R159: any other byte after `ESC`. -/
theorem decRxWith_other_of_inEscape {cfg : Config} {x : Byte} (hd : x ≠ cfg.delim) (he : x ≠ cfg.esc) {s : State}
    (hs : s.rxState = .inEscape) : decRxWith cfg x s = .next (raise .invalidEscape s) := by
  simp only [decRxWith, hs, hd, he, or_self, if_false]

section
variable {cfg : Config} (hne : cfg.esc ≠ cfg.delim) {x : Byte} {s : State} (hs : s.rxState = .inFrame)
include hne hs

/-- A legal escape inside a frame with room appends its second byte. -/
theorem rxSymbolWith_reserved_of_inFrame (hx : x = cfg.delim ∨ x = cfg.esc) (hroom : s.len + 1 ≤ cfg.maxFrame) :
    rxSymbolWith cfg x s
      = .next { s with buf := s.buf.write (appendIndex s) x, len := s.len + 1, out := Output.silent } := by
  rw [rxSymbolWith_next (decRxWith_esc_of_inFrame hne hs) (decRxWith_reserved_of_inEscape hx rfl hroom), ← hs]
  rfl

/-- The illegal symbol inside a frame raises `InvalidEscape`. -/
theorem rxSymbolWith_other_of_inFrame (hd : x ≠ cfg.delim) (he : x ≠ cfg.esc) :
    rxSymbolWith cfg x s = .next (raise .invalidEscape s) := by
  rw [rxSymbolWith_next (decRxWith_esc_of_inFrame hne hs) (decRxWith_other_of_inEscape hd he rfl)]
  rfl

end

/-- Settles O40: `ESC` enters `InEscape` with the buffer unchanged, and the second byte decides. -/
theorem symbolsInsideAFrame : Obligations.SymbolsInsideAFrame := by
  intro s hs
  have hne : Config.datvideo.esc ≠ Config.datvideo.delim := by decide
  refine ⟨fun hroom => ⟨_, rxSymbolWith_reserved_of_inFrame hne hs (.inl rfl) hroom, ?_⟩,
    fun hroom => ⟨_, rxSymbolWith_reserved_of_inFrame hne hs (.inr rfl) hroom, ?_⟩,
    fun x hd he => rxSymbolWith_other_of_inFrame hne hs hd he⟩
  · exact ⟨Memory.read_write_same .., fun a ha => Memory.read_write_other _ _ _ _ ha⟩
  · exact ⟨Memory.read_write_same .., fun a ha => Memory.read_write_other _ _ _ _ ha⟩

end Sys2Proof.Machine
end

section
/-! SUPPORT. The CRC-16 generator as a shift register (40_crc16.md sections 2 and 4): linearity of its steps, and the
other forms of the byte step. -/

namespace Sys2Proof.Machine

/-! ## Linearity over GF(2) (R110) -/

/-- A step that is linear in register and input is linear over whole input sequences. -/
theorem foldl_xor_of_linear {α : Type} {f : Word16 → α → Word16} {op : α → α → α}
    (hf : ∀ c c' x x', f (c ^^^ c') (op x x') = f c x ^^^ f c' x') :
    ∀ (xs ys : List α), xs.length = ys.length → ∀ c c' : Word16,
      (List.zipWith op xs ys).foldl f (c ^^^ c') = xs.foldl f c ^^^ ys.foldl f c'
  | [], [], _, _, _ => rfl
  | x :: xs, y :: ys, h, c, c' => by
    simp only [List.zipWith_cons_cons, List.foldl_cons, hf]
    exact foldl_xor_of_linear hf xs ys (Nat.succ.inj h) _ _

/-- The feedback word of a serial step is linear in the feedback bit. -/
theorem feedback_xor (p : Word16) (f g : Bool) :
    (if xor f g then p else 0x0000#16) = (if f then p else 0x0000#16) ^^^ (if g then p else 0x0000#16) := by
  cases f <;> cases g <;> simp

theorem bitStep_xor (p : CrcParams) (c c' : Word16) (x x' : Bool) :
    bitStep p (c ^^^ c') (xor x x') = bitStep p c x ^^^ bitStep p c' x' := by
  have hfb : xor ((c ^^^ c').getLsbD 15) (xor x x') = xor (xor (c.getLsbD 15) x) (xor (c'.getLsbD 15) x') := by
    rw [BitVec.getLsbD_xor, Bool.xor_assoc, Bool.xor_assoc, Bool.xor_left_comm (c'.getLsbD 15)]
  simp only [bitStep, hfb, feedback_xor, BitVec.shiftLeft_xor_distrib]
  ac_rfl

theorem bitsMsbFirst_xor (d d' : Byte) :
    bitsMsbFirst (d ^^^ d') = List.zipWith xor (bitsMsbFirst d) (bitsMsbFirst d') := by
  simp [bitsMsbFirst]

theorem refinByte_xor (p : CrcParams) (d d' : Byte) :
    refinByte p (d ^^^ d') = refinByte p d ^^^ refinByte p d' := by
  unfold refinByte
  split
  · ext i hi
    simp [BitVec.getElem_reverse, BitVec.getMsbD_xor]
  · rfl

theorem byteStep_xor (p : CrcParams) (c c' : Word16) (d d' : Byte) :
    byteStep p (c ^^^ c') (d ^^^ d') = byteStep p c d ^^^ byteStep p c' d' := by
  rw [byteStep, refinByte_xor, bitsMsbFirst_xor]
  exact foldl_xor_of_linear (bitStep_xor p) (bitsMsbFirst (refinByte p d)) (bitsMsbFirst (refinByte p d')) rfl c c'

/-- R104: this hardware has no output reflection and no final exclusive-or. -/
@[simp] theorem crcFinal_datvideo (c : Word16) : crcFinal CrcParams.datvideo c = c := by
  simp [crcFinal, CrcParams.datvideo]

theorem crc16_datvideo (s : List Byte) : crc16 CrcParams.datvideo s = crcRun CrcParams.datvideo 0xFFFF#16 s :=
  crcFinal_datvideo _

/-- Settles O17: the initial value cancels between two messages of one length. -/
theorem checksumIsLinear : Obligations.ChecksumIsLinear := by
  refine ⟨bitStep_xor, byteStep_xor, fun a b h => ?_⟩
  rw [crc16_datvideo, crc16_datvideo]
  exact (foldl_xor_of_linear (byteStep_xor CrcParams.datvideo) a b h 0xFFFF#16 0xFFFF#16).symm

/-! ## Messages as bits (R53) -/

theorem refinByte_of_not_refin {p : CrcParams} (hp : p.refin = false) (d : Byte) : refinByte p d = d := by
  simp [refinByte, hp]

/-- Without input reflection the register takes the message bit by bit. -/
theorem crcRun_eq_foldl_bitStep {p : CrcParams} (hp : p.refin = false) (c : Word16) (s : List Byte) :
    crcRun p c s = (messageBits s).foldl (bitStep p) c := by
  have hstep : byteStep p = fun c d => (bitsMsbFirst d).foldl (bitStep p) c :=
    funext₂ fun c d => by rw [byteStep, refinByte_of_not_refin hp]
  rw [crcRun, messageBits, List.foldl_flatMap, hstep]

/-! ## The other forms of the byte step (R103, R108) -/

/-- A round of the software form is the serial step of a message bit 0. -/
theorem softwareRound_eq_bitStep (p : CrcParams) (t : Word16) : softwareRound p t = bitStep p t false := by
  simp only [softwareRound, bitStep, Bool.xor_false]
  split <;> simp

/-- With message bits already exclusive-ored into the register, a round of the software form is the serial step of the
topmost of them, and the others move up with the register. -/
theorem softwareRound_xor (p : CrcParams) (c e : Word16) :
    softwareRound p (c ^^^ e) = bitStep p c (e.getLsbD 15) ^^^ (e <<< 1) := by
  simp only [softwareRound_eq_bitStep, bitStep, BitVec.getLsbD_xor, BitVec.shiftLeft_xor_distrib, Bool.xor_false]
  ac_rfl

/-- Eight rounds of the software form take the serial steps of the upper byte of what was exclusive-ored in. -/
theorem softwareRounds_xor (p : CrcParams) (c e : Word16) :
    (softwareRound p)^[8] (c ^^^ e) = (bitsMsbFirst (hi8 e)).foldl (bitStep p) c ^^^ (e <<< 8) := by
  simp [softwareRound_xor, bitsMsbFirst, hi8, ← BitVec.shiftLeft_add]

/-- A message byte in the upper half of the register, where the software form exclusive-ors it in. -/
def upperHalf (d : Byte) : Word16 := d.setWidth 16 <<< 8

theorem byteStepSoftware_eq (p : CrcParams) (c : Word16) (d : Byte) :
    byteStepSoftware p c d = (softwareRound p)^[8] (c ^^^ upperHalf (refinByte p d)) := rfl

@[simp] theorem hi8_upperHalf (d : Byte) : hi8 (upperHalf d) = d := by
  ext i hi
  have : 8 + i < 16 := by omega
  simp [hi8, upperHalf, this, Nat.lt_of_lt_of_le hi]

theorem upperHalf_shiftLeft (d : Byte) : upperHalf d <<< 8 = 0#16 := by
  ext i hi
  simp [upperHalf]

theorem byteStepSoftware_eq_byteStep (p : CrcParams) (c : Word16) (d : Byte) :
    byteStepSoftware p c d = byteStep p c d := by
  rw [byteStepSoftware_eq, softwareRounds_xor, hi8_upperHalf, upperHalf_shiftLeft, BitVec.xor_zero, byteStep]

theorem hi8_xor (c c' : Word16) : hi8 (c ^^^ c') = hi8 c ^^^ hi8 c' := by
  ext i hi
  simp [hi8]

theorem setWidth_shiftRight_eq_hi8 (c : Word16) : (c >>> 8).setWidth 8 = hi8 c := by
  ext i hi
  simp [hi8]

section
variable {p : CrcParams} (hp : p.refin = false)
include hp

/-- Eight rounds of the software form look up the upper byte and move the lower one up. -/
theorem softwareRounds_eq_crcTable_xor (t : Word16) :
    (softwareRound p)^[8] t = crcTable p (hi8 t) ^^^ (t <<< 8) := by
  have h := softwareRounds_xor p 0x0000#16 t
  rwa [BitVec.zero_xor, ← refinByte_of_not_refin hp (hi8 t)] at h

theorem byteStepTable_eq_byteStep (c : Word16) (d : Byte) : byteStepTable p c d = byteStep p c d := by
  have hhi : hi8 (c ^^^ upperHalf d) = (c >>> 8).setWidth 8 ^^^ d := by
    rw [hi8_xor, hi8_upperHalf, setWidth_shiftRight_eq_hi8]
  have hlo : (c ^^^ upperHalf d) <<< 8 = c <<< 8 := by
    rw [BitVec.shiftLeft_xor_distrib, upperHalf_shiftLeft, BitVec.xor_zero]
  rw [← byteStepSoftware_eq_byteStep, byteStepSoftware_eq, refinByte_of_not_refin hp,
    softwareRounds_eq_crcTable_xor hp, hhi, hlo, BitVec.xor_comm, byteStepTable]

end

/-- R108 (a): the entries of this hardware's table, by the two nibbles of the index. -/
theorem crcTable_datvideo : ∀ t : Byte, crcTable CrcParams.datvideo t = byteStepNibble 0x0000#16 t := by
  decide

theorem byteStepNibble_eq_byteStep (c : Word16) (d : Byte) :
    byteStepNibble c d = byteStep CrcParams.datvideo c d := by
  rw [← byteStepTable_eq_byteStep rfl, byteStepTable, crcTable_datvideo]
  simp [byteStepNibble, BitVec.xor_assoc]

/-- Settles O18: with the upper byte of the register taken as message bits, all forms are the serial steps of R103. -/
theorem byteStepFormsAreEqual : Obligations.ByteStepFormsAreEqual := fun c d =>
  ⟨byteStepSoftware_eq_byteStep _ c d, byteStepNibble_eq_byteStep c d, byteStepTable_eq_byteStep rfl c d⟩

/-- By linearity, what the register contributes and what the message byte contributes. -/
theorem byteStep_eq_nibble_xor_nibble (c : Word16) (d : Byte) :
    byteStep CrcParams.datvideo c d = byteStepNibble c 0x00#8 ^^^ byteStepNibble 0x0000#16 d := by
  rw [byteStepNibble_eq_byteStep, byteStepNibble_eq_byteStep, ← byteStep_xor, BitVec.xor_zero, BitVec.zero_xor]

/-- Settles O12: the equations are the nibble form read bit by bit, the register's bits before the byte's. -/
theorem crcByteParallelEquations : Obligations.CrcByteParallelEquations := by
  intro s d
  refine ⟨byteStepNibble s.crc 0x00#8 ^^^ byteStepNibble 0x0000#16 d, ?_, ?_⟩
  · rw [← byteStep_eq_nibble_xor_nibble]
    rfl
  · simp [byteStepNibble]

/-! ## The serial step in flip-flop terms (R102) -/

/-- The taps of the polynomial `x^16 + x^12 + x^5 + 1`. -/
theorem getLsbD_poly_datvideo :
    ∀ i < 16, CrcParams.datvideo.poly.getLsbD i = decide (i = 0 ∨ i = 5 ∨ i = 12) := by
  decide

/-- Each flip-flop takes its lower neighbour, and the three taps the feedback bit as well. -/
theorem getLsbD_bitStep_datvideo (c : Word16) (x : Bool) {i : Nat} (hi : i < 16) :
    (bitStep CrcParams.datvideo c x).getLsbD i
      = xor (decide (1 ≤ i) && c.getLsbD (i - 1)) (decide (i = 0 ∨ i = 5 ∨ i = 12) && xor (c.getLsbD 15) x) := by
  have hfb (f : Bool) : (if f then CrcParams.datvideo.poly else 0#16).getLsbD i
      = (decide (i = 0 ∨ i = 5 ∨ i = 12) && f) := by
    cases f <;> simp [getLsbD_poly_datvideo i hi]
  simp only [bitStep, BitVec.getLsbD_xor, hfb, BitVec.getLsbD_shiftLeft, hi, decide_true, Bool.true_and, ← decide_not,
    Nat.not_lt]

/-- Settles O11: the shift form is the definition, and the flip-flop equations are its bits. -/
theorem crcBitShiftsTheRegister : Obligations.CrcBitShiftsTheRegister := by
  refine ⟨fun a => (TokenOf.crcBit a).decodeCommand_eq,
    fun s d => ⟨_, rfl, rfl, ?_, ?_, ?_, fun i h1 h15 h5 h12 => ?_⟩⟩
  · exact (getLsbD_bitStep_datvideo s.crc d (by decide)).trans (by simp)
  · exact (getLsbD_bitStep_datvideo s.crc d (by decide)).trans (by simp)
  · exact (getLsbD_bitStep_datvideo s.crc d (by decide)).trans (by simp)
  · exact (getLsbD_bitStep_datvideo s.crc d (by omega)).trans (by simp [h1, h5, h12, Nat.ne_of_gt h1])

end Sys2Proof.Machine
end

section
/-! SUPPORT. What the CRC-16 detects (40_crc16.md section 5): which inputs take the register to zero. -/

namespace Sys2Proof.Machine

/-! ## The bits of bytes and words (R52, R53) -/

theorem getD_bitsMsbFirst (d : Byte) : ∀ i, (bitsMsbFirst d).getD i false = d.getMsbD i
  | 0 | 1 | 2 | 3 | 4 | 5 | 6 | 7 => by simp [bitsMsbFirst, BitVec.getMsbD]
  | i + 8 => by simp [bitsMsbFirst, BitVec.getMsbD]

theorem bitsMsbFirst_injective : Function.Injective bitsMsbFirst := fun d d' h =>
  BitVec.eq_of_getMsbD_eq fun i _ => by rw [← getD_bitsMsbFirst, h, getD_bitsMsbFirst]

theorem messageBits_injective_of_length_eq :
    ∀ {a b : List Byte}, a.length = b.length → messageBits a = messageBits b → a = b
  | [], [], _, _ => rfl
  | d :: a, d' :: b, hlen, h => by
    obtain ⟨hd, hs⟩ := List.append_inj (s₁ := bitsMsbFirst d) (s₂ := bitsMsbFirst d') h rfl
    rw [bitsMsbFirst_injective hd, messageBits_injective_of_length_eq (Nat.succ.inj hlen) hs]

theorem length_messageBits (s : List Byte) : (messageBits s).length = 8 * s.length := by
  simp [messageBits, bitsMsbFirst, Nat.mul_comm]

/-- The message bits of two bytes are those of the big-endian word (R52, R53). -/
theorem getD_messageBits_pair (h l : Byte) (i : Nat) :
    (messageBits [h, l]).getD i false = (bigEndian h l).getMsbD i := by
  have hbits : messageBits [h, l] = bitsMsbFirst h ++ bitsMsbFirst l := by simp [messageBits]
  rw [hbits, bigEndian, BitVec.getMsbD_append]
  split
  case isTrue hi => rw [List.getD_append_right _ _ _ _ hi, getD_bitsMsbFirst]; rfl
  case isFalse hi => rw [List.getD_append _ _ _ _ (Nat.lt_of_not_le hi), getD_bitsMsbFirst]

/-! ## Inputs that take the register to zero -/

theorem eq_zero_iff_getMsbD (c : Word16) : c = 0#16 ↔ ∀ i, c.getMsbD i = false := by
  exact ⟨fun h i => by simp [h], fun h => BitVec.eq_of_getMsbD_eq fun i _ => by simp [h]⟩

theorem eq_false_of_getElem?_ne_true {w : List Bool} (hw : ∀ j : Nat, w[j]? ≠ some true) :
    ∀ x ∈ w, x = false := by
  intro x hx
  obtain ⟨j, hj⟩ := List.mem_iff_getElem?.mp hx
  cases x with
  | false => rfl
  | true => exact absurd hj (hw j)

section
variable {p : CrcParams} (hp : p.poly.getLsbD 0 = true)
include hp

/-- A serial step of a polynomial with constant term 1: its lowest bit is the feedback bit, and without feedback it is a
plain shift. -/
theorem bitStep_getMsbD_eq_getD_iff (c : Word16) (x : Bool) (xs : List Bool) (hlen : xs.length < 16) :
    (∀ i, (bitStep p c x).getMsbD i = xs.getD i false) ↔ ∀ i, c.getMsbD i = (x :: xs).getD i false := by
  have hlow : (bitStep p c x).getMsbD 15 = xor (c.getMsbD 0) x := by
    cases hfb : xor (c.getLsbD 15) x <;> simp_all [bitStep, BitVec.getMsbD]
  have hshift (hx : c.getMsbD 0 = x) (i : Nat) : (bitStep p c x).getMsbD i = c.getMsbD (i + 1) := by
    have hfb : xor (c.getLsbD 15) x = false := by simpa [BitVec.getMsbD] using hx
    simp only [bitStep, hfb, Bool.false_eq_true, if_false, BitVec.xor_zero, BitVec.getMsbD_shiftLeft]
  constructor
  · intro h
    have hx : c.getMsbD 0 = x := by
      have := h 15
      rw [hlow, List.getD_eq_default _ _ (by omega)] at this
      simpa using this
    rintro (_ | i)
    · exact hx
    · rw [← hshift hx, h, List.getD_cons_succ]
  · intro h i
    rw [hshift (h 0), h, List.getD_cons_succ]

/-- At most 16 message bits take the register to zero exactly when they are its own bits from the top, the others being
zero: each must cancel the bit shifted out. -/
theorem foldl_bitStep_eq_zero_iff (w : List Bool) (hlen : w.length ≤ 16) (c : Word16) :
    w.foldl (bitStep p) c = 0#16 ↔ ∀ i, c.getMsbD i = w.getD i false := by
  induction w generalizing c with
  | nil => simp [eq_zero_iff_getMsbD]
  | cons x xs ih =>
    rw [List.foldl_cons, ih (by simpa using Nat.le_of_succ_le hlen), bitStep_getMsbD_eq_getD_iff hp _ _ _ hlen]

/-- Message bits 0 take the register to zero only from zero. -/
theorem foldl_bitStep_zeros_eq_zero_iff (w : List Bool) (hw : ∀ x ∈ w, x = false) (c : Word16) :
    w.foldl (bitStep p) c = 0#16 ↔ c = 0#16 := by
  induction w generalizing c with
  | nil => rfl
  | cons x xs ih =>
    obtain ⟨rfl, hxs⟩ := List.forall_mem_cons.mp hw
    have hstep : bitStep p c false = 0#16 ↔ ∀ i, c.getMsbD i = [false].getD i false :=
      foldl_bitStep_eq_zero_iff hp [false] (by decide) c
    rw [List.foldl_cons, ih hxs, hstep, eq_zero_iff_getMsbD]
    refine forall_congr' fun i => ?_
    cases i <;> simp

/-- Message bits that differ from 0 only within 16 consecutive positions do not take the register from zero to zero. -/
theorem eq_false_of_burst {e : List Bool} {k : Nat} (hsupp : ∀ j : Nat, e[j]? = some true → k ≤ j ∧ j < k + 16)
    (h : e.foldl (bitStep p) 0#16 = 0#16) : ∀ x ∈ e, x = false := by
  have hpre : ∀ x ∈ e.take k, x = false := eq_false_of_getElem?_ne_true fun j hj => by
    rw [List.getElem?_take] at hj
    split at hj
    · exact absurd (hsupp j hj).1 (by omega)
    · cases hj
  have hpost : ∀ x ∈ (e.drop k).drop 16, x = false := eq_false_of_getElem?_ne_true fun j hj => by
    rw [List.getElem?_drop, List.getElem?_drop] at hj
    have := hsupp _ hj
    omega
  have hsplit : e = e.take k ++ ((e.drop k).take 16 ++ (e.drop k).drop 16) := by
    simp only [List.take_append_drop]
  rw [hsplit, List.foldl_append, List.foldl_append, (foldl_bitStep_zeros_eq_zero_iff hp _ hpre _).mpr rfl,
    foldl_bitStep_zeros_eq_zero_iff hp _ hpost, foldl_bitStep_eq_zero_iff hp _ (List.length_take_le ..)] at h
  have hwin : ∀ x ∈ (e.drop k).take 16, x = false := eq_false_of_getElem?_ne_true fun j hj => by
    simpa [List.getD_eq_getElem?_getD, hj] using h j
  rw [hsplit]
  simp only [List.forall_mem_append]
  exact ⟨hpre, hwin, hpost⟩

end

/-! ## The residue (R112, R169) -/

/-- The register runs to zero over two bytes exactly when they are its own. -/
theorem crcRun_append_pair_eq_zero_iff (c : Word16) (s : List Byte) (h l : Byte) :
    crcRun CrcParams.datvideo c (s ++ [h, l]) = 0x0000#16 ↔ bigEndian h l = crcRun CrcParams.datvideo c s := by
  have happend : crcRun CrcParams.datvideo c (s ++ [h, l])
      = crcRun CrcParams.datvideo (crcRun CrcParams.datvideo c s) [h, l] := List.foldl_append
  rw [happend, crcRun_eq_foldl_bitStep rfl, foldl_bitStep_eq_zero_iff rfl _ (length_messageBits [h, l]).le]
  simp only [getD_messageBits_pair]
  exact ⟨fun heq => BitVec.eq_of_getMsbD_eq fun i _ => (heq i).symm, fun heq i => by rw [heq]⟩

/-- Settles O20: only its own two bytes, high byte first, run the register to zero. -/
theorem residueIsZero : Obligations.ResidueIsZero := by
  have hzero (s : List Byte) (h l : Byte) : crcRun CrcParams.datvideo 0xFFFF#16 (s ++ [h, l]) = 0x0000#16
      ↔ bigEndian h l = crc16 CrcParams.datvideo s := by
    rw [crcRun_append_pair_eq_zero_iff, crc16_datvideo]
  refine ⟨fun p => ?_, fun payload h l => ⟨hzero payload h l, ?_⟩⟩
  · rw [crc16_datvideo (p ++ _), hzero, bigEndian_hi8_lo8]
  · rw [streamingCheck, beq_iff_eq]
    exact hzero payload h l

/-! ## Burst errors (R111) -/

theorem eq_of_zipWith_xor_eq_false : ∀ {xs ys : List Bool}, xs.length = ys.length →
    (∀ x ∈ List.zipWith xor xs ys, x = false) → xs = ys
  | [], [], _, _ => rfl
  | x :: xs, y :: ys, hlen, h => by
    obtain ⟨hxy, hrest⟩ := List.forall_mem_cons.mp h
    rw [bne_eq_false_iff_eq.mp hxy, eq_of_zipWith_xor_eq_false (Nat.succ.inj hlen) hrest]

/-- Settles O19: by linearity the two registers differ by the register that the error bits reach from zero. -/
theorem burstErrorsAreDetected : Obligations.BurstErrorsAreDetected := by
  refine ⟨fun a b k hlen hne hsupp heq => hne ?_, by decide⟩
  have hbits : (messageBits a).length = (messageBits b).length := by simp only [length_messageBits, hlen]
  have herror : (List.zipWith xor (messageBits a) (messageBits b)).foldl (bitStep CrcParams.datvideo) 0#16 = 0#16 := by
    have h := foldl_xor_of_linear (bitStep_xor CrcParams.datvideo) _ _ hbits 0xFFFF#16 0xFFFF#16
    rwa [← crcRun_eq_foldl_bitStep rfl, ← crcRun_eq_foldl_bitStep rfl, ← crc16_datvideo, ← crc16_datvideo, heq,
      BitVec.xor_self, BitVec.xor_self] at h
  refine messageBits_injective_of_length_eq hlen (eq_of_zipWith_xor_eq_false hbits
    (eq_false_of_burst (k := k) rfl (fun j hj => hsupp j fun hab => ?_) herror))
  obtain ⟨x, y, hx, hy, hxy⟩ := List.getElem?_zipWith_eq_some.mp hj
  rw [hx, hy, Option.some.injEq] at hab
  simp [hab] at hxy

end Sys2Proof.Machine
end

section
/-! SUPPORT. The CRC unit's tokens (40_crc16.md section 2): what each does to the state, and runs of `CRC.BIT` and
`CRC.BYTE` in any interleaving (R114). -/

namespace Sys2Proof.Machine

/-! ## The single tokens -/

/-- Settles O10: `CRC.INIT` reads no part of the state that it answers from. -/
theorem crcInitLoadsTheInitialValue : Obligations.CrcInitLoadsTheInitialValue :=
  ⟨fun a => (TokenOf.crcInit a).decodeCommand_eq, fun _ => rfl⟩

/-- R104, on this hardware: `crc_out` is the register. -/
theorem exec_crcGet (s : State) :
    exec .crcGet s = .next { s with out := { Output.silent with crcOut := some s.crc } } := by
  change crcGetWith Config.datvideo s = _
  rw [crcGetWith, Config.datvideo, crcFinal_datvideo]

/-- Settles O15: the final value is the register itself. -/
theorem crcGetReturnsTheChecksum : Obligations.CrcGetReturnsTheChecksum :=
  ⟨fun a => (TokenOf.crcGet a).decodeCommand_eq, exec_crcGet⟩

/-! ## Tokens that present message bits -/

/-- The tokens that present message bits to the generator. -/
def PresentsBits (i : Instr) : Prop := (∃ d, i = .crcBit d) ∨ ∃ d, i = .crcByte d

/-- The state after message bits: the serial step folded over them, no output, all else as it was. -/
def State.shifted (s : State) (bits : List Bool) : State :=
  { s.quiet with crc := bits.foldl (bitStep CrcParams.datvideo) s.crc }

theorem shifted_shifted (s : State) (xs ys : List Bool) : (s.shifted xs).shifted ys = s.shifted (xs ++ ys) := by
  simp [State.shifted, State.quiet]

theorem exec_of_presentsBits {i : Instr} (hi : PresentsBits i) (s : State) :
    exec i s = .next (s.shifted (tokenBits i)) := by
  rcases hi with ⟨d, rfl⟩ | ⟨d, rfl⟩ <;> rfl

/-- The trace of tokens without outputs. -/
def silentTrace (is : List Instr) : List TraceEntry := is.map fun i => ⟨i, Output.silent⟩

/-- R114: after any message bits, tokens of both widths append theirs. -/
theorem runTokens_shifted {is : List Instr} (his : ∀ i ∈ is, PresentsBits i) (s : State) (bits : List Bool) :
    runTokens is (s.shifted bits) = .next (s.shifted (bits ++ is.flatMap tokenBits), silentTrace is) := by
  induction is generalizing bits with
  | nil => simp [runTokens, silentTrace]
  | cons i is ih =>
    obtain ⟨hi, his⟩ := List.forall_mem_cons.mp his
    refine (runWith_cons_next_iff ..).mpr ⟨_, _, exec_of_presentsBits hi _, ?_, rfl⟩
    rw [shifted_shifted, List.flatMap_cons, ← List.append_assoc]
    exact ih his _

/-- A nonempty run of them, from any state. -/
theorem runTokens_cons_of_presentsBits {i : Instr} {is : List Instr} (his : ∀ j ∈ i :: is, PresentsBits j)
    (s : State) :
    runTokens (i :: is) s = .next (s.shifted ((i :: is).flatMap tokenBits), silentTrace (i :: is)) := by
  obtain ⟨hi, his⟩ := List.forall_mem_cons.mp his
  exact (runWith_cons_next_iff ..).mpr ⟨_, _, exec_of_presentsBits hi s, runTokens_shifted his s _, rfl⟩

/-- Settles O14: a run of no token keeps the state, and any other one is a run of message bits. -/
theorem mixedWidthsAdvanceOneRegister : Obligations.MixedWidthsAdvanceOneRegister := by
  intro is s his
  cases is with
  | nil => exact ⟨s, [], rfl, rfl, ⟨rfl, rfl⟩, ⟨rfl, rfl, rfl⟩, rfl⟩
  | cons i is => exact ⟨_, _, runTokens_cons_of_presentsBits his s, rfl, ⟨rfl, rfl⟩, ⟨rfl, rfl, rfl⟩, rfl⟩

theorem presentsBits_map_crcBit (bits : List Bool) : ∀ i ∈ bits.map Instr.crcBit, PresentsBits i :=
  List.forall_mem_map.mpr fun x _ => .inl ⟨x, rfl⟩

theorem presentsBits_map_crcByte (p : List Byte) : ∀ i ∈ p.map Instr.crcByte, PresentsBits i :=
  List.forall_mem_map.mpr fun d _ => .inr ⟨d, rfl⟩

/-- Settles O13: both forms present the same message bits. -/
theorem serialAndParallelFormsAgree : Obligations.SerialAndParallelFormsAgree := fun s d =>
  ⟨_, _, rfl, rfl, runTokens_cons_of_presentsBits (presentsBits_map_crcBit (bitsMsbFirst d)) s⟩

/-! ## `CRC.MSG` (R105) -/

theorem flatMap_tokenBits_map_crcByte (p : List Byte) : (p.map Instr.crcByte).flatMap tokenBits = messageBits p :=
  List.flatMap_map ..

/-- Message bits from the initial value leave `CRC16` in the register. -/
theorem shifted_messageBits_of_init (p : List Byte) (s : State) :
    State.shifted { s with crc := 0xFFFF#16 } (messageBits p) = { s.quiet with crc := crc16 CrcParams.datvideo p } := by
  rw [crc16_datvideo, crcRun_eq_foldl_bitStep rfl]
  rfl

theorem crcOuts_append (tr1 tr2 : List TraceEntry) : crcOuts (tr1 ++ tr2) = crcOuts tr1 ++ crcOuts tr2 :=
  List.filterMap_append ..

theorem crcOuts_silentTrace (is : List Instr) : crcOuts (silentTrace is) = [] := by
  simp [crcOuts, silentTrace]

/-- The run of `CRC.MSG p`: the initial value, the message bits, and the register on `crc_out`. -/
theorem runTokens_crcMsgTokens (p : List Byte) (s : State) :
    runTokens (crcMsgTokens p) s
      = .next ({ s with crc := crc16 CrcParams.datvideo p,
                        out := { Output.silent with crcOut := some (crc16 CrcParams.datvideo p) } },
          silentTrace (.crcInit :: p.map .crcByte)
            ++ [⟨.crcGet, { Output.silent with crcOut := some (crc16 CrcParams.datvideo p) }⟩]) := by
  have hbytes := runTokens_shifted (presentsBits_map_crcByte p) { s with crc := 0xFFFF#16 } []
  rw [flatMap_tokenBits_map_crcByte, List.nil_append, shifted_messageBits_of_init] at hbytes
  refine (runWith_cons_next_iff ..).mpr ⟨State.shifted { s with crc := 0xFFFF#16 } [], _, rfl,
    (runWith_append_next_iff ..).mpr ⟨_, _, _, hbytes, ?_, rfl⟩, rfl⟩
  exact (runWith_cons_next_iff ..).mpr ⟨_, [], exec_crcGet _, rfl, rfl⟩

/-- Settles O16: the last token's answer is the one value of `crc_out`. -/
theorem crcMessageOutputsCrc16 : Obligations.CrcMessageOutputsCrc16 := fun p s => by
  refine ⟨_, _, runTokens_crcMsgTokens p s, ?_, crc16_datvideo p, rfl, ⟨rfl, rfl⟩, ⟨rfl, rfl, rfl⟩⟩
  rw [crcOuts_append, crcOuts_silentTrace, crc16_datvideo]
  rfl

end Sys2Proof.Machine
end

section
/-! SUPPORT. The encoder's tokens (41_stuff_encoder.md section 3): what each does in either state of the token protocol,
the runs of a chunk's tokens (R134), and the token programs that run (R137). -/

namespace Sys2Proof.Machine

/-! ## The escape rule (R135) -/

theorem stuffed_eq_ite (cfg : Config) (b : Byte) :
    stuffed cfg b = if b = cfg.delim ∨ b = cfg.esc then [cfg.esc, b] else [b] :=
  if_congr (reserved_eq_true_iff cfg b) rfl rfl

/-! ## The single tokens -/

/-- The three tokens of the encoder's protocol. -/
def EncToken (i : Instr) : Prop := i = .encSof ∨ i = .encEof ∨ ∃ d, i = .encData d

theorem EncToken.concerns_eq {i : Instr} (hi : EncToken i) (u : UnitId) : concerns u i = (u == .enc) := by
  rcases hi with rfl | rfl | ⟨d, rfl⟩ <;> rfl

section
variable {s : State}

/-- R131: `ENC.SOF` opens a frame. -/
theorem exec_encSof_of_idle (hs : s.encState = .encIdle) :
    exec .encSof s = .next { s.emitting [0x7E#8] with encCrc := 0xFFFF#16, encState := .encBusy } := by
  rw [exec_encSof, encSofWith, hs]
  rfl

/-- R137: no frame opens inside a frame. -/
theorem exec_encSof_of_busy (hs : s.encState = .encBusy) : exec .encSof s = .refused .sofWhileBusy := by
  rw [exec_encSof, encSofWith, hs]

/-- R132: `ENC.DATA` outputs the byte under the escape rule, and the checksum takes the byte itself. -/
theorem exec_encData_of_busy (hs : s.encState = .encBusy) (d : Byte) :
    exec (.encData d) s = .next { s.emitting (stuffed Config.datvideo d) with
      encCrc := byteStep CrcParams.datvideo s.encCrc d } := by
  rw [exec_encData, encDataWith, hs]
  rfl

/-- R137: no data outside a frame. -/
theorem exec_encData_of_idle (hs : s.encState = .encIdle) (d : Byte) :
    exec (.encData d) s = .refused .dataWhileIdle := by
  rw [exec_encData, encDataWith, hs]

/-- R133: on this hardware the checksum is the register itself. -/
theorem exec_encEof_of_busy (hs : s.encState = .encBusy) :
    exec .encEof s = .next { s.emitting ((checksumBytes s.encCrc).flatMap (stuffed Config.datvideo) ++ [0x7E#8]) with
      encState := .encIdle } := by
  rw [exec_encEof, encEofWith, hs, checksumBytes, List.flatMap_cons, List.flatMap_singleton]
  simp only [Config.datvideo, crcFinal_datvideo]

/-- R137: no close outside a frame. -/
theorem exec_encEof_of_idle (hs : s.encState = .encIdle) : exec .encEof s = .refused .eofWhileIdle := by
  rw [exec_encEof, encEofWith, hs]

end

/-- Settles O21: the two states of the token protocol. -/
theorem encSofOpensTheFrame : Obligations.EncSofOpensTheFrame :=
  ⟨fun a => (TokenOf.encSof a).decodeCommand_eq, fun _ => exec_encSof_of_idle, fun _ => exec_encSof_of_busy⟩

/-- Settles O22: the output is the byte under the escape rule. -/
theorem encDataStuffsTheByte : Obligations.EncDataStuffsTheByte := by
  refine ⟨fun d => (TokenOf.encData d).decodeCommand_eq, fun s d hs => ?_, fun s d hs => exec_encData_of_idle hs d⟩
  rw [exec_encData_of_busy hs, stuffed_eq_ite]
  rfl

/-- Settles O23: a reserved checksum byte takes one more byte than another (R72), which bounds the length. -/
theorem encEofClosesTheFrame : Obligations.EncEofClosesTheFrame := by
  refine ⟨fun a => (TokenOf.encEof a).decodeCommand_eq, fun s h l hs hcrc => ?_, fun s => exec_encEof_of_idle⟩
  have hbytes : checksumBytes s.encCrc = [h, l] := by
    rw [hcrc, checksumBytes, hi8_append, lo8_append]
  refine ⟨_, exec_encEof_of_busy hs, ?_, ?_⟩
  · rw [hbytes, List.flatMap_cons, List.flatMap_singleton, stuffed_eq_ite, stuffed_eq_ite]
    rfl
  · have hcount : [h, l].countP (reserved Config.datvideo) ≤ 2 := List.countP_le_length
    rw [hbytes, List.length_append, flatMap_stuffed_length, List.length_singleton]
    simp only [List.length_cons, List.length_nil]
    omega

/-! ## Runs of tokens that are not one unit's -/

theorem SameUnit.symm {u : UnitId} {s t : State} (h : SameUnit u s t) : SameUnit u t s := h.of_common (.refl u s)

theorem SameUnit.trans {u : UnitId} {s t v : State} (hst : SameUnit u s t) (htv : SameUnit u t v) : SameUnit u s v :=
  hst.symm.of_common htv

section
variable {is : List Instr} {s t : State} {tr : List TraceEntry}

/-- R60: a run without tokens of a unit leaves its registers alone and says nothing for it. -/
theorem runTokens_frame {u : UnitId} (hu : ∀ i ∈ is, concerns u i = false) (h : runTokens is s = .next (t, tr)) :
    SameUnit u s t ∧ ∀ e ∈ tr, SilentOn u e.out := by
  induction is generalizing s tr with
  | nil =>
    cases h
    exact ⟨.refl u t, fun _ he => absurd he List.not_mem_nil⟩
  | cons i is ih =>
    obtain ⟨hi, his⟩ := List.forall_mem_cons.mp hu
    obtain ⟨v, tr', hexec, hrun, rfl⟩ := (runWith_cons_next_iff ..).mp h
    obtain ⟨hsv, hout⟩ := exec_frame hi hexec
    obtain ⟨hvt, houts⟩ := ih his hrun
    exact ⟨hsv.trans hvt, List.forall_mem_cons.mpr ⟨hout, houts⟩⟩

/-- A run of tokens takes none of the waiting ones. -/
theorem runTokens_input (h : runTokens is s = .next (t, tr)) : t.input = s.input := by
  induction is generalizing s tr with
  | nil =>
    cases h
    rfl
  | cons i is ih =>
    obtain ⟨v, tr', hexec, hrun, -⟩ := (runWith_cons_next_iff ..).mp h
    exact (ih hrun).trans (exec_input hexec)

end

/-- A trace in which the decoder is silent has no event. -/
theorem eventsOf_of_silentOn_dec {tr : List TraceEntry} (h : ∀ e ∈ tr, SilentOn .dec e.out) : eventsOf tr = [] := by
  refine List.filter_eq_nil_iff.mpr (List.forall_mem_map.mpr fun e he => ?_)
  rw [show e.out.event = .none from h e he]
  decide

theorem wireBytes_append (tr1 tr2 : List TraceEntry) : wireBytes (tr1 ++ tr2) = wireBytes tr1 ++ wireBytes tr2 :=
  List.flatMap_append ..

/-! ## The runs of a chunk's tokens (R134) -/

/-- Inside a frame, `ENC.DATA` of each byte of `p` outputs `p` stuffed and runs the checksum over `p`. -/
theorem runTokens_map_encData (p : List Byte) {s : State} (hs : s.encState = .encBusy) :
    ∃ t tr, runTokens (p.map .encData) s = .next (t, tr) ∧ t.encState = .encBusy
      ∧ t.encCrc = crcRun CrcParams.datvideo s.encCrc p ∧ wireBytes tr = p.flatMap (stuffed Config.datvideo) := by
  induction p generalizing s with
  | nil => exact ⟨s, [], rfl, hs, rfl, rfl⟩
  | cons d p ih =>
    obtain ⟨t, tr, hrun, ht, hcrc, hbytes⟩ := ih (s := { s.emitting (stuffed Config.datvideo d) with
      encCrc := byteStep CrcParams.datvideo s.encCrc d }) hs
    refine ⟨t, _, (runWith_cons_next_iff ..).mpr ⟨_, tr, exec_encData_of_busy hs d, hrun, rfl⟩, ht, hcrc, ?_⟩
    rw [wireBytes_cons, hbytes]
    rfl

/-- The tokens of a frame not yet closed: the checksum register holds `CRC16(p)`. -/
theorem runTokens_openFrame (p : List Byte) {s : State} (hs : s.encState = .encIdle) :
    ∃ t tr, runTokens (.encSof :: p.map .encData) s = .next (t, tr) ∧ t.encState = .encBusy
      ∧ t.encCrc = crc16 CrcParams.datvideo p
      ∧ wireBytes tr = [0x7E#8] ++ p.flatMap (stuffed Config.datvideo) := by
  obtain ⟨t, tr, hrun, ht, hcrc, hbytes⟩ := runTokens_map_encData p
    (s := { s.emitting [0x7E#8] with encCrc := 0xFFFF#16, encState := .encBusy }) rfl
  refine ⟨t, _, (runWith_cons_next_iff ..).mpr ⟨_, tr, exec_encSof_of_idle hs, hrun, rfl⟩, ht,
    hcrc.trans (crc16_datvideo p).symm, ?_⟩
  rw [wireBytes_cons, hbytes]
  rfl

/-- R134: the tokens of a chunk output the frame of R130. -/
theorem runTokens_chunkTokens (p : List Byte) {s : State} (hs : s.encState = .encIdle) :
    ∃ t tr, runTokens (chunkTokens p) s = .next (t, tr) ∧ t.encState = .encIdle
      ∧ wireBytes tr = frameBytes Config.datvideo p := by
  obtain ⟨t, tr, hrun, ht, hcrc, hbytes⟩ := runTokens_openFrame p hs
  refine ⟨_, _, (runWith_append_next_iff ..).mpr ⟨t, tr, _, hrun,
    (runWith_cons_next_iff ..).mpr ⟨_, [], exec_encEof_of_busy ht, rfl, rfl⟩, rfl⟩, rfl, ?_⟩
  rw [wireBytes_append, hbytes, frameBytes_eq, frameBody, List.flatMap_append, wireBytes_cons, hcrc]
  simp [Config.datvideo]

theorem encToken_of_mem_chunkTokens (p : List Byte) : ∀ i ∈ chunkTokens p, EncToken i := by
  refine List.forall_mem_append.mpr ⟨List.forall_mem_cons.mpr ⟨.inl rfl, ?_⟩, ?_⟩
  · exact List.forall_mem_map.mpr fun d _ => .inr (.inr ⟨d, rfl⟩)
  · exact List.forall_mem_singleton.mpr (.inr (.inl rfl))

/-- Settles O25: the run of the chunk's tokens, which are no token of the other two units. -/
theorem chunkTokensEmitTheFrame : Obligations.ChunkTokensEmitTheFrame := by
  intro p s hs
  obtain ⟨t, tr, hrun, ht, hbytes⟩ := runTokens_chunkTokens p hs
  have hforeign (u : UnitId) : ∀ i ∈ chunkTokens p, concerns u i = (u == .enc) :=
    fun i hi => (encToken_of_mem_chunkTokens p i hi).concerns_eq u
  obtain ⟨hcrc, -⟩ := runTokens_frame (hforeign .crc) hrun
  obtain ⟨hdec, hsilent⟩ := runTokens_frame (hforeign .dec) hrun
  exact ⟨t, tr, hrun, hbytes ▸ encodeFrame_datvideo p, ht, eventsOf_of_silentOn_dec hsilent, hcrc, hdec,
    runTokens_input hrun⟩

/-! ## The token programs that run (R137) -/

/-- The programs that take the encoder from `EncIdle` to a state of the protocol: whole chunks, and in `EncBusy` one
more frame not yet closed. -/
def ChunksUpTo : EncState → List Instr → Prop
  | .encIdle, is => ∃ ps : List (List Byte), is = ps.flatMap chunkTokens
  | .encBusy, is => ∃ (ps : List (List Byte)) (q : List Byte),
      is = ps.flatMap chunkTokens ++ .encSof :: q.map .encData

/-- The form in which R137 is stated. -/
theorem exists_chunksUpTo_iff (is : List Instr) :
    (∃ e, ChunksUpTo e is) ↔ ∃ (ps : List (List Byte)) (tl : List Instr), is = ps.flatMap chunkTokens ++ tl
      ∧ (tl = [] ∨ ∃ q : List Byte, tl = .encSof :: q.map .encData) := by
  constructor
  · rintro ⟨_ | _, his⟩
    · obtain ⟨ps, rfl⟩ := his
      exact ⟨ps, [], (List.append_nil _).symm, .inl rfl⟩
    · obtain ⟨ps, q, rfl⟩ := his
      exact ⟨ps, _, rfl, .inr ⟨q, rfl⟩⟩
  · rintro ⟨ps, tl, rfl, rfl | ⟨q, rfl⟩⟩
    · exact ⟨.encIdle, ps, List.append_nil _⟩
    · exact ⟨.encBusy, ps, q, rfl⟩

/-- A token that the encoder takes continues such a program into the next state of the protocol. -/
theorem ChunksUpTo.of_exec {is : List Instr} {i : Instr} {s t : State} (hi : EncToken i) (h : exec i s = .next t)
    (his : ChunksUpTo s.encState is) : ChunksUpTo t.encState (is ++ [i]) := by
  cases hs : s.encState with
  | encIdle =>
    obtain ⟨ps, rfl⟩ : ChunksUpTo .encIdle is := hs ▸ his
    rcases hi with rfl | rfl | ⟨d, rfl⟩
    · rw [exec_encSof_of_idle hs] at h
      cases h
      exact ⟨ps, [], rfl⟩
    · cases (exec_encEof_of_idle hs).symm.trans h
    · cases (exec_encData_of_idle hs d).symm.trans h
  | encBusy =>
    obtain ⟨ps, q, rfl⟩ : ChunksUpTo .encBusy is := hs ▸ his
    rcases hi with rfl | rfl | ⟨d, rfl⟩
    · cases (exec_encSof_of_busy hs).symm.trans h
    · rw [exec_encEof_of_busy hs] at h
      cases h
      exact ⟨ps ++ [q], by simp [chunkTokens]⟩
    · rw [exec_encData_of_busy hs] at h
      cases h
      change ChunksUpTo s.encState _
      rw [hs]
      exact ⟨ps, q ++ [d], by simp⟩

/-- The encoder takes nothing else, by induction on the tokens from the last one. -/
theorem chunksUpTo_of_runTokens {is : List Instr} (his : ∀ i ∈ is, EncToken i) {s t : State} {tr : List TraceEntry}
    (hs : s.encState = .encIdle) (h : runTokens is s = .next (t, tr)) : ChunksUpTo t.encState is := by
  induction is using List.reverseRecOn generalizing t tr with
  | nil =>
    cases h
    rw [hs]
    exact ⟨[], rfl⟩
  | append_singleton is i ih =>
    obtain ⟨his, hi⟩ := List.forall_mem_append.mp his
    obtain ⟨v, tr1, tr2, hrun, hlast, -⟩ := (runWith_append_next_iff ..).mp h
    obtain ⟨w, tr3, hexec, hnil, -⟩ := (runWith_cons_next_iff ..).mp hlast
    cases hnil
    exact (ih his hrun).of_exec (hi i (List.mem_singleton_self i)) hexec

/-- Chunks run one after the other. -/
theorem runTokens_flatMap_chunkTokens (ps : List (List Byte)) {s : State} (hs : s.encState = .encIdle) :
    ∃ t tr, runTokens (ps.flatMap chunkTokens) s = .next (t, tr) ∧ t.encState = .encIdle := by
  induction ps generalizing s with
  | nil => exact ⟨s, [], rfl, hs⟩
  | cons p ps ih =>
    obtain ⟨v, tr1, hchunk, hv, -⟩ := runTokens_chunkTokens p hs
    obtain ⟨t, tr2, hrest, ht⟩ := ih hv
    exact ⟨t, _, (runWith_append_next_iff ..).mpr ⟨v, tr1, tr2, hchunk, hrest, rfl⟩, ht⟩

/-- Such a program runs, from `EncIdle` to that state. -/
theorem ChunksUpTo.runs {e : EncState} {is : List Instr} (his : ChunksUpTo e is) {s : State}
    (hs : s.encState = .encIdle) : ∃ t tr, runTokens is s = .next (t, tr) ∧ t.encState = e := by
  cases e with
  | encIdle =>
    obtain ⟨ps, rfl⟩ := his
    exact runTokens_flatMap_chunkTokens ps hs
  | encBusy =>
    obtain ⟨ps, q, rfl⟩ := his
    obtain ⟨v, tr1, hchunks, hv⟩ := runTokens_flatMap_chunkTokens ps hs
    obtain ⟨t, tr2, hopen, ht, -⟩ := runTokens_openFrame q hv
    exact ⟨t, _, (runWith_append_next_iff ..).mpr ⟨v, tr1, tr2, hchunks, hopen, rfl⟩, ht⟩

/-- Settles O24: the state of the protocol that a run ends in says whether the last frame is closed. -/
theorem acceptedEncoderProgramsAreChunks : Obligations.AcceptedEncoderProgramsAreChunks := by
  intro is s hs his
  rw [← exists_chunksUpTo_iff]
  constructor
  · rintro ⟨t, tr, h⟩
    exact ⟨t.encState, chunksUpTo_of_runTokens his hs h⟩
  · rintro ⟨e, he⟩
    obtain ⟨t, tr, h, -⟩ := he.runs hs
    exact ⟨t, tr, h⟩

end Sys2Proof.Machine
end

section
/-! SUPPORT. The frame decoder (42_frame_decoder.md): what `DEC.RX` answers in each cell of R150's dispatch, its
refinement of R166's function on lists, and what each event and the escape state need. -/

namespace Sys2Proof.Machine

/-! ## Body bytes and frame bodies -/

/-- In this receive state the byte belongs to the frame's body: a data byte in `InFrame` (R155, R156), a reserved byte
after `ESC` (R157, R158). -/
def IsBodyByte (cfg : Config) (rx : RxState) (d : Byte) : Prop :=
  (rx = .inFrame ∧ d ≠ cfg.delim ∧ d ≠ cfg.esc) ∨ (rx = .inEscape ∧ (d = cfg.delim ∨ d = cfg.esc))

theorem rxTableClose_of_short {cfg : Config} {body : List Byte} (hn : body.length < 2) :
    rxTableClose cfg body = .condition .shortFrame := if_pos hn

/-- R161 to R163: a body of at least two bytes is checked. -/
theorem rxTableClose_of_long {cfg : Config} {body : List Byte} (hn : 2 ≤ body.length) :
    rxTableClose cfg body = if bodyChecksum body = crc16 cfg.crc (bodyPayload body)
      then .chunk (bodyPayload body) else .condition .crcMismatch := if_neg (Nat.not_lt.mpr hn)

/-- The last two bytes of a body are its checksum, high byte first (R57). -/
theorem rxTableClose_append (cfg : Config) (payload : List Byte) (h l : Byte) :
    rxTableClose cfg (payload ++ [h, l])
      = if h ++ l = crc16 cfg.crc payload then .chunk payload else .condition .crcMismatch := by
  rw [rxTableClose_of_long (by simp), bodyChecksum_append, bodyPayload_append, bigEndian_eq_append]

/-! ## The cells of the dispatch (R150) -/

section
variable {cfg : Config} {d : Byte} {s : State}

theorem rxAppendOrLong_of_room (hroom : s.len + 1 ≤ cfg.maxFrame) :
    rxAppendOrLong cfg d s
      = .next { s.quiet with buf := s.buf.write (appendIndex s) d, len := s.len + 1, rxState := .inFrame } := by
  rcases rxAppendOrLong_cases cfg d s with ⟨hfull, -⟩ | ⟨-, h⟩
  · exact absurd hroom (Nat.not_le.mpr hfull)
  · exact h

theorem rxAppendOrLong_of_full (hfull : cfg.maxFrame < s.len + 1) :
    rxAppendOrLong cfg d s = .next (raise .longFrame s) := if_pos hfull

theorem rxClose_of_short (hn : s.len < 2) : rxClose cfg s = .next (raise .shortFrame s) := if_pos hn

/-- A close whose body can be read answers with the event of R166's close. -/
theorem rxClose_of_bufContents {body : List Byte} (hb : bufContents cfg s = .ok body) :
    rxClose cfg s = .next { s with
      rxState := .reset, len := 0, out := { Output.silent with event := rxTableClose cfg body } } := by
  have hlen : body.length = s.len := memRead_length hb
  rw [bufContents] at hb
  by_cases hn : s.len < 2
  · rw [rxClose_of_short hn, rxTableClose_of_short (hlen ▸ hn)]
    rfl
  · rw [rxClose, if_neg hn, hb, rxTableClose_of_long (by omega)]
    dsimp only
    split <;> rfl

/-- R151: hunt. -/
theorem decRxWith_other_of_reset (hs : s.rxState = .reset) (hd : d ≠ cfg.delim) :
    decRxWith cfg d s = .next s.quiet := by
  rw [decRxWith, hs]
  exact if_neg hd

/-- R152: open. -/
theorem decRxWith_delim_of_reset (hs : s.rxState = .reset) :
    decRxWith cfg cfg.delim s = .next { s.quiet with len := 0, rxState := .inFrame } := by
  rw [decRxWith, hs]
  exact if_pos rfl

/-- R153: a delimiter in a frame closes it, whatever `len` is. -/
theorem decRxWith_delim_of_inFrame (hs : s.rxState = .inFrame) : decRxWith cfg cfg.delim s = rxClose cfg s := by
  rw [decRxWith, hs]
  exact if_pos rfl

/-- R155 to R158: a body byte meets the size test. -/
theorem decRxWith_of_isBodyByte (hd : IsBodyByte cfg s.rxState d) : decRxWith cfg d s = rxAppendOrLong cfg d s := by
  rw [decRxWith]
  rcases hd with ⟨hs, hdelim, hesc⟩ | ⟨hs, hres⟩ <;> rw [hs]
  · exact (if_neg hdelim).trans (if_neg hesc)
  · exact if_pos hres

end

/-! ## Refinement of R166's function -/

/-- R150 for the one-byte tokens: each receives the byte that it presents. -/
theorem exec_of_receivedByte {i : Instr} {d : Byte} (hi : receivedByte Config.datvideo i = some d) (s : State) :
    exec i s = decRxWith Config.datvideo d s := by
  cases i <;> cases hi <;> rfl

/-- A body byte in R166's function. -/
theorem rxTable_of_isBodyByte {cfg : Config} {rx : RxState} {d : Byte} (hd : IsBodyByte cfg rx d) (bs : List Byte) :
    rxTable cfg (rx, bs) d = if bs.length + 1 > cfg.maxFrame then ((.reset, []), .condition .longFrame)
      else ((.inFrame, bs ++ [d]), .none) := by
  rcases hd with ⟨rfl, hdelim, hesc⟩ | ⟨rfl, hres⟩
  · exact (if_neg hdelim).trans (if_neg hesc)
  · exact if_pos hres

/-- The state has made the step of R166's function that ends in `r`. -/
def StepHolds (cfg : Config) (t : State) (r : RxPair × Event) : Prop := DecHolds cfg t r.1 ∧ t.out.event = r.2

/-- A state with no collected byte. -/
theorem stepHolds_of_empty {cfg : Config} {t : State} (hlen : t.len = 0) :
    StepHolds cfg t ((t.rxState, []), t.out.event) := ⟨⟨rfl, by rw [bufContents, hlen, memRead_zero]⟩, rfl⟩

/-- The close, whichever event it gives. -/
theorem stepHolds_of_close {cfg : Config} {s t : State} {bs : List Byte} (hs : s.rxState = .inFrame)
    (hbs : bufContents cfg s = .ok bs) (h : decRxWith cfg cfg.delim s = .next t) :
    StepHolds cfg t (rxTable cfg (.inFrame, bs) cfg.delim) := by
  rw [decRxWith_delim_of_inFrame hs, rxClose_of_bufContents hbs] at h
  obtain rfl := Host.Outcome.next.inj h
  rw [rxTable, if_pos rfl]
  exact stepHolds_of_empty rfl

/-- R166: a byte received where the decoder holds `v` takes the step of the function on lists. -/
theorem stepHolds_of_decRxWith {cfg : Config} {s t : State} {v : RxPair} {d : Byte}
    (hempty : s.rxState = .reset → s.len = 0) (hv : DecHolds cfg s v) (h : decRxWith cfg d s = .next t) :
    StepHolds cfg t (rxTable cfg v d) := by
  obtain ⟨rx, bs⟩ := v
  obtain ⟨rfl, hbs⟩ : s.rxState = rx ∧ bufContents cfg s = .ok bs := hv
  have hlen : bs.length = s.len := memRead_length hbs
  rcases decRxWith_next_cases h with
    ⟨hs, hd, rfl⟩ | ⟨hs, rfl, rfl⟩ | ⟨hs, rfl, -, -⟩ | ⟨hs, rfl, -, -⟩ | ⟨hs, hd, rfl, rfl⟩
      | ⟨hbody, ⟨hfull, rfl⟩ | ⟨hroom, rfl⟩⟩ | ⟨hs, hd, he, rfl⟩
  · rw [hs, rxTable, if_neg hd, ← hs]
    exact stepHolds_of_empty (hempty hs)
  · rw [hs, rxTable, if_pos rfl]
    exact stepHolds_of_empty rfl
  · rw [hs]
    exact stepHolds_of_close hs hbs h
  · rw [hs]
    exact stepHolds_of_close hs hbs h
  · rw [hs, rxTable, if_neg hd, if_pos rfl]
    exact ⟨⟨rfl, hbs⟩, rfl⟩
  · rw [rxTable_of_isBodyByte hbody, hlen, if_pos hfull]
    exact stepHolds_of_empty rfl
  · rw [rxTable_of_isBodyByte hbody, hlen, if_neg (Nat.not_lt.mpr hroom)]
    exact ⟨⟨rfl, memRead_write_end d hroom hbs⟩, rfl⟩
  · rw [hs, rxTable, if_neg (not_or.mpr ⟨hd, he⟩)]
    exact stepHolds_of_empty rfl

/-- Settles O34: the byte completes in a good state, takes the step of the function on lists, and is the decoder's
own. -/
theorem receiveRefinesTransitionTable : Obligations.ReceiveRefinesTransitionTable := by
  intro s v i d hg hv hi
  obtain ⟨t, h⟩ := decRxWith_completes hg d
  have hexec : exec i s = .next t := (exec_of_receivedByte hi s).trans h
  have hdec := decRxWith_belongsTo Config.datvideo d
  obtain ⟨hhold, hevent⟩ := stepHolds_of_decRxWith hg.emptyInReset hv h
  have hout : t.out = outputOf .dec t.out := congrArg State.out (hdec.next_eq_moveUnit h)
  rw [outputOf, hevent] at hout
  exact ⟨t, hexec, hhold, hout, (hdec.frame h (v := .crc) nofun).1, (hdec.frame h (v := .enc) nofun).1,
    exec_input hexec⟩

/-! ## The cells on this hardware -/

/-- Settles O28: the two cells of `Reset`. -/
theorem resetStateHuntsForDelim : Obligations.ResetStateHuntsForDelim := by
  refine fun s d hs => ⟨decRxWith_other_of_reset (cfg := Config.datvideo) hs, ?_⟩
  rintro rfl
  exact decRxWith_delim_of_reset (cfg := Config.datvideo) hs

/-- Settles O29: the cell of `ESC` in a frame has no size test. -/
theorem escapeKeepsTheBuffer : Obligations.EscapeKeepsTheBuffer := fun _ hs =>
  decRxWith_esc_of_inFrame (cfg := Config.datvideo) (by decide) hs

/-- Settles O30: a body byte passes the size test, and a write changes its own index alone. -/
theorem appendStoresAtLen : Obligations.AppendStoresAtLen := by
  intro s d hd hroom
  exact ⟨s.buf.write (appendIndex s) d,
    (decRxWith_of_isBodyByte (cfg := Config.datvideo) hd).trans (rxAppendOrLong_of_room hroom),
    Memory.read_write_same .., fun a ha => Memory.read_write_other _ _ _ _ ha, Memory.write_wf _ _ _⟩

/-- Settles O31: a body byte fails the size test. -/
theorem fullBufferRaisesLongFrame : Obligations.FullBufferRaisesLongFrame := fun _ _ hd hfull =>
  (decRxWith_of_isBodyByte (cfg := Config.datvideo) hd).trans (rxAppendOrLong_of_full hfull)

/-- Settles O32: the cell of any other byte after `ESC` has no size test. -/
theorem dataAfterEscapeIsInvalid : Obligations.DataAfterEscapeIsInvalid := fun _ _ hs hd he =>
  decRxWith_other_of_inEscape (cfg := Config.datvideo) hd he hs

/-- Settles O33: a delimiter in a frame closes it, with the event of R166's close. -/
theorem closeChecksTheFrame : Obligations.CloseChecksTheFrame := by
  have hclose {s : State} (hs : s.rxState = .inFrame) : exec (.decRx 0x7E#8) s = rxClose Config.datvideo s :=
    decRxWith_delim_of_inFrame (cfg := Config.datvideo) hs
  refine ⟨fun s hs hn => (hclose hs).trans (rxClose_of_short hn), fun s payload h l hs hbody => ?_⟩
  rw [hclose hs, rxClose_of_bufContents hbody, rxTableClose_append]
  rfl

/-! ## What an event and the escape state need -/

/-- The byte, the receive state and the length that an event needs (R165, R220). -/
def EventNeeds (cfg : Config) (s : State) (d : Byte) : Event → Prop
  | .none => True
  | .chunk _ => d = cfg.delim ∧ s.rxState = .inFrame ∧ 2 ≤ s.len
  | .condition .crcMismatch => d = cfg.delim ∧ s.rxState = .inFrame ∧ 2 ≤ s.len
  | .condition .shortFrame => d = cfg.delim ∧ s.rxState = .inFrame ∧ s.len < 2
  | .condition .longFrame => cfg.maxFrame < s.len + 1 ∧ IsBodyByte cfg s.rxState d
  | .condition .invalidEscape => s.rxState = .inEscape ∧ d ≠ cfg.delim ∧ d ≠ cfg.esc

/-- R165: a received byte gives an event only where the event's needs are met. -/
theorem eventNeeds_of_decRxWith {cfg : Config} {d : Byte} {s t : State} (h : decRxWith cfg d s = .next t) :
    EventNeeds cfg s d t.out.event := by
  rcases decRxWith_next_cases h with
    ⟨-, -, rfl⟩ | ⟨-, -, rfl⟩ | ⟨hs, hd, hn, rfl⟩ | ⟨hs, hd, hn, body, -, ⟨-, rfl⟩ | ⟨-, rfl⟩⟩ | ⟨-, -, -, rfl⟩
      | ⟨hbody, ⟨hfull, rfl⟩ | ⟨-, rfl⟩⟩ | ⟨hs, hd, he, rfl⟩
  · exact trivial
  · exact trivial
  · exact ⟨hd, hs, hn⟩
  · exact ⟨hd, hs, hn⟩
  · exact ⟨hd, hs, hn⟩
  · exact trivial
  · exact ⟨hfull, hbody⟩
  · exact trivial
  · exact ⟨hs, hd, he⟩

/-- Settles O36: the needs of each event but `None`. -/
theorem eventsNeedTheirByteAndState : Obligations.EventsNeedTheirByteAndState := by
  intro s t d h
  have hneeds : EventNeeds Config.datvideo s d t.out.event := eventNeeds_of_decRxWith h
  refine ⟨?_, fun he => ?_, fun he => ?_, fun he => ?_⟩
  · rintro (⟨p, he⟩ | he) <;> rw [he] at hneeds <;> exact hneeds
  all_goals
    rw [he] at hneeds
    exact hneeds

/-- R29: a received byte leads to `InEscape` exactly when it is `ESC` in a frame. -/
theorem decRxWith_inEscape_iff {cfg : Config} (hne : cfg.esc ≠ cfg.delim) {d : Byte} {s t : State}
    (h : decRxWith cfg d s = .next t) : t.rxState = .inEscape ↔ s.rxState = .inFrame ∧ d = cfg.esc := by
  constructor
  · intro ht
    rcases decRxWith_next_cases h with
      ⟨hs, -, rfl⟩ | ⟨-, -, rfl⟩ | ⟨-, -, -, rfl⟩ | ⟨-, -, -, body, -, ⟨-, rfl⟩ | ⟨-, rfl⟩⟩ | ⟨hs, -, hd, -⟩
        | ⟨-, ⟨-, rfl⟩ | ⟨-, rfl⟩⟩ | ⟨-, -, -, rfl⟩
    · cases hs.symm.trans ht
    · cases ht
    · cases ht
    · cases ht
    · cases ht
    · exact ⟨hs, hd⟩
    · cases ht
    · cases ht
    · cases ht
  · rintro ⟨hs, rfl⟩
    rw [decRxWith_esc_of_inFrame hne hs] at h
    obtain rfl := Host.Outcome.next.inj h
    rfl

/-- Settles O37: this hardware's `ESC` is not its `DELIM`. -/
theorem escapeStateLastsOneByte : Obligations.EscapeStateLastsOneByte := fun _ _ _ h =>
  decRxWith_inEscape_iff (cfg := Config.datvideo) (by decide) h

end Sys2Proof.Machine
end

section
/-! SUPPORT. The system operations (43_system_ops.md section 1) and the step with no token waiting. -/

namespace Sys2Proof.Machine

theorem step_nothing {s : State} (hs : s.input = []) : step s = .next s.idle := by
  rw [step, fetch, fetchWith, hs]

/-- Settles O7: an idle step is a silent one. -/
theorem stepsWithoutAnInstruction : Obligations.StepsWithoutAnInstruction := fun _ hs => step_nothing hs

theorem exec_decEos (s : State) : exec .decEos s = .next { s.quiet with len := 0, rxState := .reset } := rfl

/-- Settles O41: `DEC.EOS` reads no part of the state that it answers from. -/
theorem endOfStreamAbandonsTheFrame : Obligations.EndOfStreamAbandonsTheFrame :=
  ⟨fun a => (TokenOf.decEos a).decodeCommand_eq, exec_decEos⟩

/-- Settles O42: `RESET` is the three units' resets, and the reset of one unit writes that unit's registers only. -/
theorem resetTokenResetsEveryUnit : Obligations.ResetTokenResetsEveryUnit := by
  refine ⟨fun a => (TokenOf.reset a).decodeCommand_eq, exec_reset, fun s u rest hs =>
    ⟨_, step_resetUnit hs, resetUnit_input u _, ?_⟩⟩
  cases u with
  | crc => exact ⟨rfl, rfl, (if_pos rfl).mpr rfl, (if_neg nofun).mpr ⟨rfl, rfl⟩, (if_neg nofun).mpr ⟨rfl, rfl, rfl⟩⟩
  | enc => exact ⟨rfl, rfl, (if_neg nofun).mpr rfl, (if_pos rfl).mpr ⟨rfl, rfl⟩, (if_neg nofun).mpr ⟨rfl, rfl, rfl⟩⟩
  | dec => exact ⟨rfl, rfl, (if_neg nofun).mpr rfl, (if_neg nofun).mpr ⟨rfl, rfl⟩, (if_pos rfl).mpr ⟨rfl, rfl⟩⟩

end Sys2Proof.Machine
end

section
/-! SUPPORT. Runs of `DEC.RX` (43_system_ops.md R198, 44_codec_laws.md R202): under every well-formed configuration, and
from every state in which the collected bytes can be read, they are the fold of R166's function over the bytes. -/

namespace Sys2Proof.Machine

/-! ## The fold of R166's function -/

/-- The fold of R202 from `v`: what the decoder then holds, and the events other than `None`. -/
def rxTableRun (cfg : Config) (v : RxPair) (w : List Byte) : RxPair × List Event :=
  ((w.foldl (rxTableStep cfg) (v, [])).1, (w.foldl (rxTableStep cfg) (v, [])).2.filter Event.isSome)

@[simp] theorem rxTableRun_nil (cfg : Config) (v : RxPair) : rxTableRun cfg v [] = (v, []) := rfl

/-- The events so far are only added to. -/
theorem foldl_rxTableStep (cfg : Config) (w : List Byte) (v : RxPair) (es : List Event) :
    w.foldl (rxTableStep cfg) (v, es)
      = ((w.foldl (rxTableStep cfg) (v, [])).1, es ++ (w.foldl (rxTableStep cfg) (v, [])).2) := by
  induction w generalizing v es with
  | nil => simp
  | cons d w ih =>
    simp only [List.foldl_cons, rxTableStep]
    rw [ih _ (es ++ _), ih _ ([] ++ _)]
    simp

theorem rxTableRun_append {cfg : Config} {v u x : RxPair} {w1 w2 : List Byte} {es fs : List Event}
    (h1 : rxTableRun cfg v w1 = (u, es)) (h2 : rxTableRun cfg u w2 = (x, fs)) :
    rxTableRun cfg v (w1 ++ w2) = (x, es ++ fs) := by
  obtain ⟨rfl, rfl⟩ := Prod.mk.inj h1
  obtain ⟨rfl, rfl⟩ := Prod.mk.inj h2
  rw [rxTableRun, List.foldl_append, foldl_rxTableStep cfg w2, List.filter_append]

theorem rxTableRun_singleton (cfg : Config) (v : RxPair) (d : Byte) :
    rxTableRun cfg v [d]
      = ((rxTable cfg v d).1, if (rxTable cfg v d).2.isSome then [(rxTable cfg v d).2] else []) := by
  simp [rxTableRun, rxTableStep, List.filter_cons]

theorem rxTableRun_cons (cfg : Config) (v : RxPair) (d : Byte) (w : List Byte) :
    rxTableRun cfg v (d :: w) = ((rxTableRun cfg (rxTable cfg v d).1 w).1,
      (if (rxTable cfg v d).2.isSome then [(rxTable cfg v d).2] else [])
        ++ (rxTableRun cfg (rxTable cfg v d).1 w).2) :=
  rxTableRun_append (rxTableRun_singleton cfg v d) rfl

/-! ## The machine's runs -/

/-- Between two steps the decoder holds `v` (R202), with an empty buffer in `Reset` (R28). -/
def DecReady (cfg : Config) (s : State) (v : RxPair) : Prop := DecHolds cfg s v ∧ (v.1 = .reset → v.2 = [])

theorem decReady_of_reset {cfg : Config} {s : State} (hs : s.rxState = .reset) (hlen : s.len = 0) :
    DecReady cfg s (.reset, []) := ⟨⟨hs, by rw [bufContents, hlen, memRead_zero]⟩, fun _ => rfl⟩

/-- R166 leaves the buffer empty wherever it leads to `Reset`. -/
theorem rxTable_empty_of_reset (cfg : Config) (v : RxPair) (d : Byte) :
    (rxTable cfg v d).1.1 = .reset → (rxTable cfg v d).1.2 = [] := by
  fun_cases rxTable <;> simp

/-- Every byte completes where the collected bytes can be read. -/
theorem decRxWith_completes_of_bufContents {cfg : Config} {s : State} {bs : List Byte}
    (hbs : bufContents cfg s = .ok bs) (d : Byte) : ∃ t, decRxWith cfg d s = .next t := by
  have hbody (hd : IsBodyByte cfg s.rxState d) : ∃ t, decRxWith cfg d s = .next t :=
    decRxWith_of_isBodyByte hd ▸ rxAppendOrLong_completes cfg d s
  cases hs : s.rxState with
  | reset =>
    by_cases hd : d = cfg.delim
    · exact ⟨_, hd ▸ decRxWith_delim_of_reset hs⟩
    · exact ⟨_, decRxWith_other_of_reset hs hd⟩
  | inFrame =>
    by_cases hd : d = cfg.delim
    · exact ⟨_, hd ▸ (decRxWith_delim_of_inFrame hs).trans (rxClose_of_bufContents hbs)⟩
    · by_cases he : d = cfg.esc
      · exact ⟨_, he ▸ decRxWith_esc_of_inFrame (he ▸ hd) hs⟩
      · exact hbody (.inl ⟨hs, hd, he⟩)
  | inEscape =>
    by_cases hd : d = cfg.delim ∨ d = cfg.esc
    · exact hbody (.inr ⟨hs, hd⟩)
    · obtain ⟨hd, he⟩ := not_or.mp hd
      exact ⟨_, decRxWith_other_of_inEscape hd he hs⟩

/-- One byte received is one step of R166's function. -/
theorem DecReady.decRxWith {cfg : Config} {s : State} {v : RxPair} (h : DecReady cfg s v) (d : Byte) :
    ∃ t, decRxWith cfg d s = .next t ∧ DecReady cfg t (rxTable cfg v d).1 ∧ t.out.event = (rxTable cfg v d).2 := by
  obtain ⟨⟨hrx, hbs⟩, hempty⟩ := h
  obtain ⟨t, ht⟩ := decRxWith_completes_of_bufContents hbs d
  have hlen : v.2.length = s.len := memRead_length hbs
  have hreset (hs : s.rxState = .reset) : s.len = 0 := by rw [← hlen, hempty (hrx ▸ hs), List.length_nil]
  obtain ⟨hhold, hevent⟩ := stepHolds_of_decRxWith hreset ⟨hrx, hbs⟩ ht
  exact ⟨t, ht, ⟨hhold, rxTable_empty_of_reset cfg v d⟩, hevent⟩

section
variable {cfg : Config} (hcfg : cfg.wf = true)
include hcfg

theorem execWith_decRx (d : Byte) (s : State) : execWith cfg (.decRx d) s = decRxWith cfg d s := if_pos hcfg

theorem execWith_decEos (s : State) : execWith cfg .decEos s = .next { s.quiet with len := 0, rxState := .reset } :=
  if_pos hcfg

/-- `DEC.STREAM w` is the fold of R166's function over `w`. -/
theorem DecReady.runWith_streamTokens (w : List Byte) {s : State} {v : RxPair} (h : DecReady cfg s v) :
    ∃ t tr, runWith (execWith cfg) (streamTokens w) s = .next (t, tr)
      ∧ DecReady cfg t (rxTableRun cfg v w).1 ∧ eventsOf tr = (rxTableRun cfg v w).2 := by
  induction w generalizing s v with
  | nil => exact ⟨s, [], rfl, h, rfl⟩
  | cons d w ih =>
    obtain ⟨u, hu, hready, hevent⟩ := h.decRxWith d
    obtain ⟨t, tr, hrun, ht, hevents⟩ := ih hready
    rw [rxTableRun_cons]
    refine ⟨t, _, (runWith_cons_next_iff ..).mpr ⟨u, tr, (execWith_decRx hcfg d s).trans hu, hrun, rfl⟩, ht, ?_⟩
    rw [eventsOf_cons, hevent, hevents]

/-- R198: the closing `DEC.EOS` adds no event. -/
theorem decodeEvents_eq (w : List Byte) : decodeEvents cfg w = .next (rxTableRun cfg (.reset, []) w).2 := by
  obtain ⟨t, tr, hrun, -, hevents⟩ :=
    (decReady_of_reset (s := State.initial cfg) rfl rfl).runWith_streamTokens hcfg w
  have heos : runWith (execWith cfg) [.decEos] t = .next (_, [⟨.decEos, Output.silent⟩]) :=
    (runWith_cons_next_iff ..).mpr ⟨_, [], execWith_decEos hcfg t, rfl, rfl⟩
  rw [decodeEvents, (runWith_append_next_iff ..).mpr ⟨t, tr, _, hrun, heos, rfl⟩, ← hevents]
  exact congrArg _ ((eventsOf_append ..).trans (List.append_nil _))

theorem decodeStream_eq (w : List Byte) :
    decodeStream cfg w = .next (chunksIn (rxTableRun cfg (.reset, []) w).2) := by
  rw [decodeStream, decodeEvents_eq hcfg]

end

end Sys2Proof.Machine
end

section
/-! SUPPORT. The round trip of the stream driver (43_system_ops.md R196 to R198, 44_codec_laws.md R200, R201): what the
decoder makes of whole frames, and how the driver cuts its input. -/

namespace Sys2Proof.Machine

/-! ## Frames received -/

section
variable {cfg : Config} (hne : cfg.esc ≠ cfg.delim)
include hne

/-- R140: the one or two wire bytes of a body byte append it. -/
theorem rxTableRun_stuffed {bs : List Byte} (b : Byte) (hroom : bs.length + 1 ≤ cfg.maxFrame) :
    rxTableRun cfg (.inFrame, bs) (stuffed cfg b) = ((.inFrame, bs ++ [b]), []) := by
  have happend {rx : RxState} (hb : IsBodyByte cfg rx b) :
      rxTableRun cfg (rx, bs) [b] = ((.inFrame, bs ++ [b]), []) := by
    rw [rxTableRun_singleton, rxTable_of_isBodyByte hb, if_neg (Nat.not_lt.mpr hroom)]
    rfl
  rw [stuffed]
  split <;> rename_i hb <;> rw [reserved_eq_true_iff] at hb
  · have hesc : rxTableRun cfg (.inFrame, bs) [cfg.esc] = ((.inEscape, bs), []) := by
      rw [rxTableRun_singleton, rxTable, if_neg hne, if_pos rfl]
      rfl
    exact rxTableRun_append hesc (happend (.inr ⟨rfl, hb⟩))
  · exact happend (.inl ⟨rfl, not_or.mp hb⟩)

/-- A stuffed body that fits is collected byte by byte. -/
theorem rxTableRun_flatMap_stuffed (body : List Byte) {bs : List Byte}
    (hroom : bs.length + body.length ≤ cfg.maxFrame) :
    rxTableRun cfg (.inFrame, bs) (body.flatMap (stuffed cfg)) = ((.inFrame, bs ++ body), []) := by
  induction body generalizing bs with
  | nil => simp
  | cons b body ih =>
    rw [List.length_cons] at hroom
    have hbody := ih (bs := bs ++ [b]) (by rw [List.length_append, List.length_singleton]; omega)
    rw [List.append_assoc, List.singleton_append] at hbody
    exact rxTableRun_append (rxTableRun_stuffed hne b (by omega)) hbody

/-- R200: the frame of a chunk that fits is received as that chunk. -/
theorem rxTableRun_frameBytes {p : List Byte} (hp : p.length + 2 ≤ cfg.maxFrame) :
    rxTableRun cfg (.reset, []) (frameBytes cfg p) = ((.reset, []), [.chunk p]) := by
  have hopen : rxTableRun cfg (.reset, []) [cfg.delim] = ((.inFrame, []), []) := by
    rw [rxTableRun_singleton, rxTable, if_pos rfl]
    rfl
  have hbody : rxTableRun cfg (.inFrame, []) ((frameBody cfg p).flatMap (stuffed cfg))
      = ((.inFrame, frameBody cfg p), []) :=
    rxTableRun_flatMap_stuffed hne _ (by rw [frameBody_length, List.length_nil]; omega)
  have hcheck : rxTableClose cfg (frameBody cfg p) = .chunk p := by
    rw [frameBody, checksumBytes, rxTableClose_append, ← bigEndian_eq_append, bigEndian_hi8_lo8, if_pos rfl]
  have hclose : rxTableRun cfg (.inFrame, frameBody cfg p) [cfg.delim] = ((.reset, []), [.chunk p]) := by
    rw [rxTableRun_singleton, rxTable, if_pos rfl, hcheck]
    rfl
  rw [frameBytes_eq]
  exact rxTableRun_append (rxTableRun_append hopen hbody) hclose

/-- R201 for adjacent frames. -/
theorem rxTableRun_flatMap_frameBytes {ps : List (List Byte)} (hps : ∀ p ∈ ps, p.length + 2 ≤ cfg.maxFrame) :
    rxTableRun cfg (.reset, []) (ps.flatMap (frameBytes cfg)) = ((.reset, []), ps.map .chunk) := by
  induction ps with
  | nil => rfl
  | cons p ps ih =>
    obtain ⟨hp, hps⟩ := List.forall_mem_cons.mp hps
    exact rxTableRun_append (rxTableRun_frameBytes hne hp) (ih hps)

end

theorem chunksIn_map_chunk (ps : List (List Byte)) : chunksIn (ps.map .chunk) = ps := by
  rw [chunksIn, List.filterMap_map]
  exact List.filterMap_some

/-- Adjacent frames of chunks that fit decode to those chunks. -/
theorem decodeStream_flatMap_frameBytes {cfg : Config} (hcfg : cfg.wf = true) {ps : List (List Byte)}
    (hps : ∀ p ∈ ps, p.length + 2 ≤ cfg.maxFrame) : decodeStream cfg (ps.flatMap (frameBytes cfg)) = .next ps := by
  rw [decodeStream_eq hcfg, rxTableRun_flatMap_frameBytes (Config.esc_ne_delim_of_wf hcfg) hps, chunksIn_map_chunk]

/-! ## The driver's chunks (R196) -/

section
variable {k : Nat} (hk : 1 ≤ k)
include hk

/-- Every chunk takes at least one byte, so as many chunks as there are bytes are enough. -/
theorem flatten_chunksOf {fuel : Nat} {s : List Byte} (hfuel : s.length ≤ fuel) :
    (chunksOf k fuel s).flatten = s := by
  induction fuel generalizing s with
  | zero => exact (List.length_eq_zero_iff.mp (Nat.le_zero.mp hfuel)).symm
  | succ fuel ih =>
    rw [chunksOf]
    split <;> rename_i hs
    · exact hs.symm
    · rw [List.flatten_cons, ih (by rw [List.length_drop]; omega), List.take_append_drop]

theorem length_of_mem_chunksOf {fuel : Nat} {s c : List Byte} (hc : c ∈ chunksOf k fuel s) :
    1 ≤ c.length ∧ c.length ≤ k := by
  induction fuel generalizing s with
  | zero => exact absurd hc List.not_mem_nil
  | succ fuel ih =>
    rw [chunksOf] at hc
    split at hc <;> rename_i hs
    · exact absurd hc List.not_mem_nil
    · rcases List.mem_cons.mp hc with rfl | hc
      · have hpos := List.length_pos_iff.mpr hs
        rw [List.length_take]
        omega
      · exact ih hc

end

theorem one_le_chunkSize_of_wf {cfg : Config} (h : cfg.wf = true) : 1 ≤ cfg.chunkSize := by
  simp only [Config.wf, Bool.and_eq_true, decide_eq_true_eq] at h
  obtain ⟨-, hk⟩ := h
  exact hk

/-- Settles O60: the driver's chunks fit, and each comes back from its own frame. -/
theorem encodedStreamIsRecovered : Obligations.EncodedStreamIsRecovered := by
  intro cfg input hcfg hcovers
  have hk : 1 ≤ cfg.chunkSize := one_le_chunkSize_of_wf hcfg
  have hfit : cfg.chunkSize + 2 ≤ cfg.maxFrame := of_decide_eq_true hcovers
  refine ⟨chunksOf cfg.chunkSize input.length input, _, (driverChunks_eq_next_iff ..).mpr ⟨hcfg, rfl⟩,
    (encodeStream_eq_next_iff ..).mpr ⟨hcfg, rfl⟩, decodeStream_flatMap_frameBytes hcfg fun c hc => ?_,
    flatten_chunksOf hk le_rfl, fun c hc => length_of_mem_chunksOf hk hc,
    (encodeStream_eq_next_iff ..).mpr ⟨hcfg, rfl⟩, decodeStream_flatMap_frameBytes hcfg (ps := []) nofun⟩
  obtain ⟨-, hle⟩ := length_of_mem_chunksOf hk hc
  omega

end Sys2Proof.Machine
end

section
/-! SUPPORT. Faults (44_codec_laws.md R207): in a good state every instruction completes or is refused, and every step
leads to a good state again. -/

namespace Sys2Proof.Machine

theorem ne_fault_of_completes {o : Host.Outcome State Fault Refusal} (h : ∃ t, o = .next t) (f : Fault) :
    o ≠ .fault f := by
  obtain ⟨t, rfl⟩ := h
  nofun

/-- An encoder token completes or is refused (R137). -/
theorem exec_ne_fault_of_encToken {i : Instr} (hi : EncToken i) (s : State) (f : Fault) : exec i s ≠ .fault f := by
  rcases hi with rfl | rfl | ⟨d, rfl⟩ <;> rcases s with ⟨_, _ | _, _⟩ <;> nofun

/-- No instruction faults in a good state: the two that read or write the buffer complete. -/
theorem GoodState.exec_ne_fault {s : State} (hg : GoodState Config.datvideo s) (i : Instr) (f : Fault) :
    exec i s ≠ .fault f := by
  cases i with
  | delim | esc | data b | decRx d => exact ne_fault_of_completes (decRxWith_completes hg _) f
  | escDelim | escEsc | escOther x => exact ne_fault_of_completes (rxSymbolWith_completes hg _) f
  | encSof => exact exec_ne_fault_of_encToken (.inl rfl) s f
  | encEof => exact exec_ne_fault_of_encToken (.inr (.inl rfl)) s f
  | encData d => exact exec_ne_fault_of_encToken (.inr (.inr ⟨d, rfl⟩)) s f
  | crcInit | crcByte d | crcBit d | crcGet | decEos | reset => nofun

/-- No step from a good state faults, whatever token waits. -/
theorem GoodState.step_ne_fault {s : State} (hg : GoodState Config.datvideo s) (f : Fault) : step s ≠ .fault f := by
  rw [step]
  cases fetch s with
  | nothing => nofun
  | unitReset u rest => nofun
  | instr i rest => exact (hg.withInput rest).exec_ne_fault i f
  | reject r => nofun

/-- A machine whose steps keep a predicate, and do not fault where it holds, has no run from there that faults. -/
theorem run_ne_fault_of_invariant {M : Host.Core} {P : M.State → Prop} {f : M.Fault}
    (hkeeps : ∀ s t, P s → M.step s = .next t → P t) (hstep : ∀ s, P s → M.step s ≠ .fault f) (k : Nat)
    {s : M.State} (hs : P s) : M.run k s ≠ .fault f := by
  induction k generalizing s with
  | zero => nofun
  | succ k ih =>
    have hne := hstep s hs
    rw [Host.Core.run]
    cases h : M.step s with
    | next t => exact ih (hkeeps s t hs h)
    | fault f' => exact fun heq => hne (h.trans heq)
    | refused r => nofun

/-- Settles O46: `GoodState` is kept by every step (O45). -/
theorem runsFromTheInvariantNeverFault : Obligations.RunsFromTheInvariantNeverFault := fun _ hg k f =>
  run_ne_fault_of_invariant (M := core) (P := GoodState Config.datvideo) stepKeepsTheInvariant
    (fun _ h => h.step_ne_fault f) k hg

end Sys2Proof.Machine
end

section
/-! SUPPORT. The laws of the encoder and the decoder (44_codec_laws.md R200 to R204, R208, R209), each read off the fold
of R166's function over the received bytes. -/

namespace Sys2Proof.Machine

/-! ## Runs on this hardware and from `Reset` -/

theorem runTokens_eq_runWith : runTokens = runWith (execWith Config.datvideo) := by
  funext is s
  rw [runTokens, funext₂ exec_eq_execWith_datvideo]

theorem runWith_streamTokens_append {ex : Instr → State → Host.Outcome State Fault Refusal} {w1 w2 : List Byte}
    {s t u : State} {tr1 tr2 : List TraceEntry} (h1 : runWith ex (streamTokens w1) s = .next (t, tr1))
    (h2 : runWith ex (streamTokens w2) t = .next (u, tr2)) :
    runWith ex (streamTokens (w1 ++ w2)) s = .next (u, tr1 ++ tr2) := by
  rw [streamTokens, List.map_append]
  exact (runWith_append_next_iff ..).mpr ⟨t, tr1, tr2, h1, h2, rfl⟩

/-- In a good state the buffer is empty in `Reset` (R28). -/
theorem GoodState.decReady {cfg : Config} {s : State} (hg : GoodState cfg s) {v : RxPair} (hv : DecHolds cfg s v) :
    DecReady cfg s v := by
  obtain ⟨hrx, hbuf⟩ := hv
  exact ⟨⟨hrx, hbuf⟩, fun hreset => List.eq_nil_of_length_eq_zero
    ((memRead_length hbuf).trans (hg.emptyInReset (hrx.trans hreset)))⟩

/-- In `Reset` the decoder has collected nothing (R28). -/
theorem DecReady.reset_empty {cfg : Config} {s : State} {bs : List Byte} (h : DecReady cfg s (.reset, bs)) :
    s.rxState = .reset ∧ s.len = 0 := by
  obtain ⟨⟨hrx, hbuf⟩, hempty⟩ := h
  exact ⟨hrx, by rw [← memRead_length hbuf, hempty rfl, List.length_nil]⟩

section
variable {cfg : Config} (hcfg : cfg.wf = true)
include hcfg

/-- `DEC.STREAM` of a nonempty sequence, with the step of its last byte apart. -/
theorem DecReady.runWith_concat (w : List Byte) (d : Byte) {s : State} {v u : RxPair} {es : List Event}
    (h : DecReady cfg s v) (hw : rxTableRun cfg v w = (u, es)) :
    ∃ t tr e, runWith (execWith cfg) (streamTokens (w ++ [d])) s = .next (t, tr ++ [e])
      ∧ DecReady cfg t (rxTable cfg u d).1 ∧ eventsOf tr = es ∧ e.out.event = (rxTable cfg u d).2 := by
  obtain ⟨x, tr, hrun, hx, hevents⟩ := h.runWith_streamTokens hcfg w
  rw [hw] at hx hevents
  obtain ⟨t, ht, hready, hevent⟩ := hx.decRxWith d
  have hlast : runWith (execWith cfg) (streamTokens [d]) x = .next (t, [⟨.decRx d, t.out⟩]) :=
    (runWith_cons_next_iff ..).mpr ⟨t, [], (execWith_decRx hcfg d x).trans ht, rfl, rfl⟩
  exact ⟨t, tr, ⟨.decRx d, t.out⟩, runWith_streamTokens_append hrun hlast, hready, hevents, hevent⟩

section
variable {s : State} (hs : s.rxState = .reset) (hlen : s.len = 0)
include hs hlen

/-- A byte sequence that takes R166's function from `Reset` to `Reset` does so from every state in `Reset` with an empty
buffer. -/
theorem runWith_of_rxTableRun {w : List Byte} {es : List Event}
    (hw : rxTableRun cfg (.reset, []) w = ((.reset, []), es)) :
    ∃ t tr, runWith (execWith cfg) (streamTokens w) s = .next (t, tr) ∧ eventsOf tr = es ∧ t.rxState = .reset
      ∧ t.len = 0 := by
  obtain ⟨t, tr, hrun, ht, hevents⟩ := (decReady_of_reset hs hlen).runWith_streamTokens hcfg w
  rw [hw] at ht hevents
  exact ⟨t, tr, hrun, hevents, ht.reset_empty⟩

end

end

/-! ## Frames from `Reset` -/

section
variable {cfg : Config}

theorem rxTableRun_delim_of_reset : rxTableRun cfg (.reset, []) [cfg.delim] = ((.inFrame, []), []) := by
  rw [rxTableRun_singleton, rxTable, if_pos rfl]
  rfl

/-- R153: a delimiter in a frame closes it. -/
theorem rxTableRun_delim_of_inFrame (bs : List Byte) :
    rxTableRun cfg (.inFrame, bs) [cfg.delim] = ((.reset, []), [rxTableClose cfg bs]) := by
  have hsome : (rxTableClose cfg bs).isSome = true := by fun_cases rxTableClose <;> rfl
  rw [rxTableRun_singleton, rxTable, if_pos rfl, if_pos hsome]

/-- R151: the bytes between two frames are discarded. -/
theorem rxTableRun_hunt {g : List Byte} (hg : cfg.delim ∉ g) :
    rxTableRun cfg (.reset, []) g = ((.reset, []), []) := by
  induction g with
  | nil => rfl
  | cons d g ih =>
    obtain ⟨hd, hg⟩ := List.ne_and_not_mem_of_not_mem_cons hg
    have hfirst : rxTableRun cfg (.reset, []) [d] = ((.reset, []), []) := by
      rw [rxTableRun_singleton, rxTable, if_neg (Ne.symm hd)]
      rfl
    exact rxTableRun_append hfirst (ih hg)

/-- The wire bytes of a byte are one or none that leaves the buffer alone, and then the byte itself as a body byte. -/
theorem stuffed_eq_concat (hne : cfg.esc ≠ cfg.delim) (b : Byte) :
    ∃ w rx, stuffed cfg b = w ++ [b] ∧ IsBodyByte cfg rx b
      ∧ ∀ bs, rxTableRun cfg (.inFrame, bs) w = ((rx, bs), []) := by
  rw [stuffed]
  split <;> rename_i hb <;> rw [reserved_eq_true_iff] at hb
  · refine ⟨[cfg.esc], .inEscape, rfl, .inr ⟨rfl, hb⟩, fun bs => ?_⟩
    rw [rxTableRun_singleton, rxTable, if_neg hne, if_pos rfl]
    rfl
  · exact ⟨[], .inFrame, rfl, .inl ⟨rfl, not_or.mp hb⟩, fun bs => rfl⟩

section
variable (hne : cfg.esc ≠ cfg.delim) {body : List Byte} (hfit : body.length ≤ cfg.maxFrame)
include hne hfit

/-- An opened frame whose body fits has collected the body. -/
theorem rxTableRun_openFrame :
    rxTableRun cfg (.reset, []) ([cfg.delim] ++ body.flatMap (stuffed cfg)) = ((.inFrame, body), []) :=
  rxTableRun_append rxTableRun_delim_of_reset
    (rxTableRun_flatMap_stuffed hne body ((Nat.zero_add _).trans_le hfit))

/-- A frame whose body fits closes with the one event of the close, whatever its checksum bytes are. -/
theorem rxTableRun_closedFrame :
    rxTableRun cfg (.reset, []) ([cfg.delim] ++ body.flatMap (stuffed cfg) ++ [cfg.delim])
      = ((.reset, []), [rxTableClose cfg body]) :=
  rxTableRun_append (rxTableRun_openFrame hne hfit) (rxTableRun_delim_of_inFrame body)

end

/-- R201: frames with gaps between them. -/
theorem rxTableRun_frames_with_gaps (hne : cfg.esc ≠ cfg.delim) {frames : List (List Byte × List Byte)}
    (hfit : ∀ f ∈ frames, f.1.length + 2 ≤ cfg.maxFrame ∧ cfg.delim ∉ f.2) :
    rxTableRun cfg (.reset, []) (frames.flatMap fun f => frameBytes cfg f.1 ++ f.2)
      = ((.reset, []), frames.map fun f => .chunk f.1) := by
  induction frames with
  | nil => rfl
  | cons f frames ih =>
    obtain ⟨⟨hf, hgap⟩, hfit⟩ := List.forall_mem_cons.mp hfit
    exact rxTableRun_append (rxTableRun_append (rxTableRun_frameBytes hne hf) (rxTableRun_hunt hgap)) (ih hfit)

end

/-- Settles O49: the frame is received as its chunk. -/
theorem encodedChunkIsRecovered : Obligations.EncodedChunkIsRecovered := by
  intro cfg p s hcfg hp hs hlen
  obtain ⟨t, tr, hrun, hevents, ht⟩ :=
    runWith_of_rxTableRun hcfg hs hlen (rxTableRun_frameBytes (Config.esc_ne_delim_of_wf hcfg) hp)
  exact ⟨_, t, tr, (encodeFrame_eq_next_iff ..).mpr ⟨hcfg, rfl⟩, hrun, hevents, hevents ▸ chunksIn_map_chunk [p], ht⟩

/-- Settles O50: the first gap is hunted through, and then the frames follow, each with the gap after it. -/
theorem concatenatedFramesAreRecovered : Obligations.ConcatenatedFramesAreRecovered := by
  intro cfg g0 frames hcfg hg0 hfit
  refine ⟨fun f _ => (encodeFrame_eq_next_iff ..).mpr ⟨hcfg, rfl⟩, ?_⟩
  have hrun := rxTableRun_append (rxTableRun_hunt hg0)
    (rxTableRun_frames_with_gaps (Config.esc_ne_delim_of_wf hcfg) hfit)
  rw [decodeEvents_eq hcfg, hrun, List.nil_append]

/-- Settles O51: each run is the fold over its bytes, and the fold goes through the state between the two parts. -/
theorem fragmentationDoesNotMatter : Obligations.FragmentationDoesNotMatter := by
  intro s v w1 w2 hg hv
  rw [runTokens_eq_runWith]
  have hcfg : Config.datvideo.wf = true := by decide
  obtain ⟨t, tr1, hrun1, ht, hevents1⟩ := (hg.decReady hv).runWith_streamTokens hcfg w1
  obtain ⟨u, tr2, hrun2, hu, hevents2⟩ := ht.runWith_streamTokens hcfg w2
  have hfold : rxTableRun Config.datvideo v (w1 ++ w2) = _ := rxTableRun_append rfl rfl
  refine ⟨t, u, tr1, tr2, hrun1, ht.1, hevents1, hrun2, runWith_streamTokens_append hrun1 hrun2, ?_, ?_⟩
  · exact (congrArg Prod.fst hfold).symm ▸ hu.1
  · rw [eventsOf_append, hevents1, hevents2]
    exact (congrArg Prod.snd hfold).symm

/-! ## The size limit (R204) -/

theorem two_le_maxFrame_of_wf {cfg : Config} (h : cfg.wf = true) : 2 ≤ cfg.maxFrame := by
  simp only [Config.wf, Bool.and_eq_true, decide_eq_true_eq] at h
  obtain ⟨⟨-, hn⟩, -⟩ := h
  exact hn

/-- R155, R158: a body byte that finds the buffer full. -/
theorem rxTable_of_full {cfg : Config} {rx : RxState} {d : Byte} {bs : List Byte} (hd : IsBodyByte cfg rx d)
    (hfull : cfg.maxFrame < bs.length + 1) : rxTable cfg (rx, bs) d = ((.reset, []), .condition .longFrame) := by
  rw [rxTable_of_isBodyByte hd, if_pos hfull]

/-- Settles O53: one byte too many is met on its last wire byte by a full buffer, and a full buffer closes as any other
one of at least two bytes does. -/
theorem oversizedFrameIsDropped : Obligations.OversizedFrameIsDropped := by
  intro cfg m s hcfg hs hlen
  have hne := Config.esc_ne_delim_of_wf hcfg
  refine ⟨fun hm => ?_, fun hm => ?_⟩
  · obtain rfl | ⟨body, b, rfl⟩ := m.eq_nil_or_concat'
    · cases hm
    rw [List.length_append, List.length_singleton, Nat.add_right_cancel_iff] at hm
    obtain ⟨w, rx, hstuffed, hb, hw⟩ := stuffed_eq_concat hne b
    have hbefore := rxTableRun_append (rxTableRun_openFrame hne hm.le) (hw body)
    obtain ⟨t, tr, e, hrun, ht, hevents, he⟩ := (decReady_of_reset hs hlen).runWith_concat hcfg _ b hbefore
    rw [rxTable_of_full hb (by omega)] at ht he
    refine ⟨t, tr, e, ?_, hevents, he, ht.reset_empty⟩
    rw [List.flatMap_append, List.flatMap_singleton, hstuffed, ← List.append_assoc, ← List.append_assoc]
    exact hrun
  · have htwo : 2 ≤ m.length := hm ▸ two_le_maxFrame_of_wf hcfg
    obtain ⟨t, tr, hrun, hevents, ht⟩ := runWith_of_rxTableRun hcfg hs hlen (rxTableRun_closedFrame hne hm.le)
    rw [rxTableClose_of_long htwo] at hevents
    exact ⟨t, tr, hrun, hevents, ht⟩

/-! ## One inverted bit (R203) -/

theorem exists_append_pair {body : List Byte} (hn : 2 ≤ body.length) : ∃ payload h l, body = payload ++ [h, l] := by
  have hlast : (body.drop (body.length - 2)).length = 2 := by
    rw [List.length_drop]
    omega
  obtain ⟨h, l, hpair⟩ := List.length_eq_two.mp hlast
  exact ⟨_, h, l, by rw [← hpair, List.take_append_drop]⟩

/-- A body of at least two bytes whose checksum bytes are not its own. -/
theorem rxTableClose_of_crc16_ne_zero {body : List Byte} (hn : 2 ≤ body.length)
    (hcrc : crc16 CrcParams.datvideo body ≠ 0x0000#16) :
    rxTableClose Config.datvideo body = .condition .crcMismatch := by
  obtain ⟨payload, h, l, rfl⟩ := exists_append_pair hn
  rw [crc16_datvideo, Ne, crcRun_append_pair_eq_zero_iff, ← crc16_datvideo] at hcrc
  exact (rxTableClose_append ..).trans (if_neg hcrc)

/-- R112: a whole frame body runs the register to zero. -/
theorem crc16_frameBody (p : List Byte) : crc16 CrcParams.datvideo (frameBody Config.datvideo p) = 0x0000#16 :=
  And.left residueIsZero p

/-- R111 for one byte: two messages that differ in it alone have different checksums. -/
theorem crc16_ne_of_one_byte (pre post : List Byte) {b c : Byte} (hne : b ≠ c) :
    crc16 CrcParams.datvideo (pre ++ b :: post) ≠ crc16 CrcParams.datvideo (pre ++ c :: post) := by
  refine And.left burstErrorsAreDetected _ _ (messageBits pre).length (by simp) (by simp [hne]) fun j hj => ?_
  have hbits (x : Byte) :
      messageBits (pre ++ x :: post) = messageBits pre ++ (bitsMsbFirst x ++ messageBits post) := by
    simp [messageBits]
  rw [hbits, hbits] at hj
  by_contra hout
  rcases Nat.lt_or_ge j (messageBits pre).length with hlt | hge
  · exact hj (by rw [List.getElem?_append_left hlt, List.getElem?_append_left hlt])
  · have hpast (x : Byte) : (bitsMsbFirst x).length ≤ j - (messageBits pre).length := by
      rw [show (bitsMsbFirst x).length = 8 from rfl]
      omega
    exact hj (by rw [List.getElem?_append_right hge, List.getElem?_append_right hge,
      List.getElem?_append_right (hpast b), List.getElem?_append_right (hpast c)]; rfl)

theorem stuffed_of_not_reserved {cfg : Config} {b : Byte} (hb : reserved cfg b = false) : stuffed cfg b = [b] := by
  rw [stuffed, hb]
  rfl

/-- R72: a literal of a body stands for itself in the frame. -/
theorem frame_literal {cfg : Config} {pre post : List Byte} {b : Byte} (hb : reserved cfg b = false) :
    [cfg.delim] ++ (pre ++ b :: post).flatMap (stuffed cfg) ++ [cfg.delim]
      = ([cfg.delim] ++ pre.flatMap (stuffed cfg)) ++ b :: (post.flatMap (stuffed cfg) ++ [cfg.delim]) := by
  rw [List.flatMap_append, List.flatMap_cons, stuffed_of_not_reserved hb]
  simp only [List.append_assoc, List.cons_append, List.nil_append]

/-- Replacing a literal of the frame by another one replaces it in the body. -/
theorem frame_set_literal {cfg : Config} (pre post : List Byte) {b c : Byte} (hb : reserved cfg b = false)
    (hc : reserved cfg c = false) {f : List Byte}
    (hf : f = [cfg.delim] ++ (pre ++ b :: post).flatMap (stuffed cfg) ++ [cfg.delim]) :
    f[1 + (pre.flatMap (stuffed cfg)).length]? = some b
      ∧ f.set (1 + (pre.flatMap (stuffed cfg)).length) c
        = [cfg.delim] ++ (pre ++ c :: post).flatMap (stuffed cfg) ++ [cfg.delim] := by
  have hi : 1 + (pre.flatMap (stuffed cfg)).length = ([cfg.delim] ++ pre.flatMap (stuffed cfg)).length := by
    rw [List.length_append, List.length_singleton]
  rw [hf, frame_literal hb, frame_literal hc, hi, List.getElem?_append_right le_rfl, List.set_append_right _ _ le_rfl,
    Nat.sub_self]
  exact ⟨rfl, rfl⟩

/-- A frame whose body differs in one byte from one that runs the register to zero. -/
theorem rxTableRun_damagedFrame {pre post : List Byte} {b c : Byte} (hne : b ≠ c)
    (hcrc : crc16 CrcParams.datvideo (pre ++ b :: post) = 0x0000#16) (hmin : 2 ≤ (pre ++ b :: post).length)
    (hfit : (pre ++ b :: post).length ≤ 1048576) :
    rxTableRun Config.datvideo (.reset, [])
        ([Config.datvideo.delim] ++ (pre ++ c :: post).flatMap (stuffed Config.datvideo) ++ [Config.datvideo.delim])
      = ((.reset, []), [.condition .crcMismatch]) := by
  have hlen : (pre ++ c :: post).length = (pre ++ b :: post).length := by
    rw [List.length_append, List.length_append, List.length_cons, List.length_cons]
  have hcrc' : crc16 CrcParams.datvideo (pre ++ c :: post) ≠ 0x0000#16 :=
    hcrc ▸ (crc16_ne_of_one_byte pre post hne).symm
  rw [rxTableRun_closedFrame (by decide) (hlen.trans_le hfit),
    rxTableClose_of_crc16_ne_zero (hlen.symm ▸ hmin) hcrc']

theorem ne_xor_one_shiftLeft (b : Byte) {k : Nat} (hk : k < 8) : b ≠ b ^^^ (1#8 <<< k) := by
  intro h
  have hbit := congrArg (BitVec.getLsbD · k) h
  simp [hk] at hbit

theorem take_append_cons_drop_of_getElem? {α : Type} {l : List α} {j : Nat} {a : α} (h : l[j]? = some a) :
    l.take j ++ a :: l.drop (j + 1) = l := by
  obtain ⟨hlt, rfl⟩ := List.getElem?_eq_some_iff.mp h
  rw [← List.drop_eq_getElem_cons, List.take_append_drop]

/-- Settles O52: the damaged frame is that of a body with one other byte, so its checksum is not its own. -/
theorem invertedLiteralBitIsDetected : Obligations.InvertedLiteralBitIsDetected := by
  intro p j k b s hp hj hk hb hc hs hlen
  rw [runTokens_eq_runWith]
  have hcfg : Config.datvideo.wf = true := by decide
  have hsplit := take_append_cons_drop_of_getElem? hj
  have hlength := hsplit ▸ frameBody_length Config.datvideo p
  have hframe := hsplit ▸ frameBytes_eq Config.datvideo p
  obtain ⟨hget, hset⟩ := frame_set_literal _ _ hb hc hframe
  have hfold := rxTableRun_damagedFrame (ne_xor_one_shiftLeft b hk) (hsplit ▸ crc16_frameBody p) (by omega) (by omega)
  obtain ⟨t, tr, hrun, hevents, hrx, hn⟩ := runWith_of_rxTableRun hcfg hs hlen hfold
  have hdecode := (decodeEvents_eq hcfg _).trans (congrArg (Host.Outcome.next ·.2) hfold)
  refine ⟨_, _, _, t, tr, encodeFrame_datvideo p, rfl, hget, hset.symm, hrun, hevents, hevents ▸ rfl, hrx, hn, hdecode,
    ?_⟩
  rw [decodeStream, hdecode]
  rfl

/-! ## What the wire held (R208) -/

theorem rxTableRun_concat_fst (cfg : Config) (v : RxPair) (w : List Byte) (d : Byte) :
    (rxTableRun cfg v (w ++ [d])).1 = (rxTable cfg (rxTableRun cfg v w).1 d).1 := by
  rw [rxTableRun_append (Prod.mk.eta (p := rxTableRun cfg v w)).symm (rxTableRun_singleton ..)]

/-- What the bytes received from `Reset` end with, given what the decoder holds after them: in a frame, a delimiter met
in `Reset` and then the stuffed form of the collected bytes, and an `ESC` more after `ESC`. -/
def EndsWithFrame (cfg : Config) (w : List Byte) : RxPair → Prop
  | (.reset, _) => True
  | (.inFrame, bs) => ∃ pre, (rxTableRun cfg (.reset, []) pre).1.1 = .reset
      ∧ w = pre ++ [cfg.delim] ++ bs.flatMap (stuffed cfg)
  | (.inEscape, bs) => ∃ pre, (rxTableRun cfg (.reset, []) pre).1.1 = .reset
      ∧ w = pre ++ [cfg.delim] ++ bs.flatMap (stuffed cfg) ++ [cfg.esc]

/-- The last wire byte of a body byte lengthens the stuffed body by that byte. -/
theorem EndsWithFrame.of_isBodyByte {cfg : Config} {w : List Byte} {rx : RxState} {bs : List Byte} {d : Byte}
    (h : EndsWithFrame cfg w (rx, bs)) (hd : IsBodyByte cfg rx d) :
    EndsWithFrame cfg (w ++ [d]) (.inFrame, bs ++ [d]) := by
  rcases hd with ⟨rfl, hd⟩ | ⟨rfl, hd⟩
  · obtain ⟨pre, hpre, rfl⟩ := h
    have hb : reserved cfg d = false := by simpa [reserved] using hd
    refine ⟨pre, hpre, ?_⟩
    rw [List.flatMap_append, List.flatMap_singleton, stuffed_of_not_reserved hb, List.append_assoc]
  · obtain ⟨pre, hpre, rfl⟩ := h
    refine ⟨pre, hpre, ?_⟩
    rw [List.flatMap_append, List.flatMap_singleton, stuffed, if_pos ((reserved_eq_true_iff cfg d).mpr hd)]
    simp

/-- One byte more keeps what the wire ends with. -/
theorem EndsWithFrame.concat {cfg : Config} {w : List Byte} {v : RxPair} (hv : (rxTableRun cfg (.reset, []) w).1 = v)
    (h : EndsWithFrame cfg w v) (d : Byte) : EndsWithFrame cfg (w ++ [d]) (rxTable cfg v d).1 := by
  fun_cases rxTable cfg v d with
  | case1 => exact ⟨w, congrArg Prod.fst hv, (List.append_nil _).symm⟩
  | case4 bs =>
    obtain ⟨pre, hpre, rfl⟩ := h
    exact ⟨pre, hpre, rfl⟩
  | case6 bs _ hd he => exact h.of_isBodyByte (.inl ⟨rfl, hd, he⟩)
  | case8 bs _ hd => exact h.of_isBodyByte (.inr ⟨rfl, hd⟩)
  | case2 | case3 | case5 | case7 | case9 => trivial

theorem endsWithFrame_rxTableRun (cfg : Config) (w : List Byte) :
    EndsWithFrame cfg w (rxTableRun cfg (.reset, []) w).1 := by
  induction w using List.reverseRecOn with
  | nil => trivial
  | append_singleton w d ih =>
    rw [rxTableRun_concat_fst]
    exact ih.concat rfl d

/-- R161, R162: only a body that ends in its own checksum is delivered. -/
theorem eq_frameBody_of_rxTableClose {cfg : Config} {body p : List Byte} (h : rxTableClose cfg body = .chunk p) :
    body = frameBody cfg p := by
  by_cases hn : body.length < 2
  · rw [rxTableClose_of_short hn] at h
    cases h
  · obtain ⟨payload, hi, lo, rfl⟩ := exists_append_pair (Nat.not_lt.mp hn)
    rw [rxTableClose_append] at h
    split at h <;> rename_i hcrc <;> cases h
    rw [frameBody, ← hcrc, checksumBytes, hi8_append, lo8_append]

/-- R225: only a delimiter in a frame delivers a chunk. -/
theorem rxTable_chunk {cfg : Config} {v : RxPair} {d : Byte} {p : List Byte} (h : (rxTable cfg v d).2 = .chunk p) :
    v = (.inFrame, frameBody cfg p) ∧ d = cfg.delim := by
  revert h
  fun_cases rxTable cfg v d with
  | case3 bs => exact fun h => ⟨congrArg _ (eq_frameBody_of_rxTableClose h), rfl⟩
  | case1 | case2 | case4 | case5 | case6 | case7 | case8 | case9 => nofun

/-- Settles O54: the step with the event closes the frame that the wire before it ends with, and the body of that frame
is the encoder's own, whose symbols are legal and contribute it (O27). -/
theorem deliveredChunksWereOnTheWire : Obligations.DeliveredChunksWereOnTheWire := by
  intro w s t tr e p hs hlen hrun he
  rw [runTokens_eq_runWith] at hrun ⊢
  have hcfg : Config.datvideo.wf = true := by decide
  have hready : DecReady Config.datvideo s (.reset, []) := decReady_of_reset hs hlen
  obtain rfl | ⟨w, d, rfl⟩ := w.eq_nil_or_concat'
  · exact absurd (congrArg Prod.snd (Host.Outcome.next.inj hrun)) (by simp)
  obtain ⟨t', tr', e', hrun', -, -, he'⟩ := hready.runWith_concat hcfg w d rfl
  have htrace : tr ++ [e] = tr' ++ [e'] := congrArg Prod.snd (Host.Outcome.next.inj (hrun.symm.trans hrun'))
  obtain rfl : e = e' := List.singleton_inj.mp (List.append_inj' htrace rfl).2
  obtain ⟨hv, rfl⟩ := rxTable_chunk (he'.symm.trans he)
  obtain ⟨pre, hpre, hw⟩ := hv ▸ endsWithFrame_rxTableRun Config.datvideo w
  obtain ⟨u, tr0, hrun0, hu, -⟩ := hready.runWith_streamTokens hcfg pre
  obtain ⟨body, ss, hframe, hparse, hlegal, hcontributes⟩ := frameBodyParsesIntoLegalSymbols p
  rw [encodeFrame_datvideo, frameBytes_eq] at hframe
  have hbody := List.append_cancel_left (List.append_cancel_right (Host.Outcome.next.inj hframe))
  exact ⟨pre, body, ss, u, tr0, by rw [hw, hbody]; rfl, hrun0, hu.1.1.trans hpre, hparse, hlegal, hcontributes⟩

/-! ## Counting closes (R209) -/

/-- The events that close a frame at a delimiter: `Chunk`, `ShortFrame` and `CrcMismatch` (R220). -/
def isClose (ev : Event) : Bool := ev.code == 1 || ev.code == 2 || ev.code == 5

/-- The delimiters that the decoder has met in the frame it is in. -/
def openDelims : RxState → Nat
  | .reset => 0
  | .inFrame => 1
  | .inEscape => 1

/-- A close takes one delimiter besides the one that opened its frame, and every other step at most drops a frame. -/
theorem closes_rxTable_le (cfg : Config) (v : RxPair) (d : Byte) :
    2 * (if isClose (rxTable cfg v d).2 then 1 else 0) + openDelims (rxTable cfg v d).1.1
      ≤ openDelims v.1 + if d = cfg.delim then 1 else 0 := by
  fun_cases rxTable cfg v d with
  | case3 bs =>
    rw [if_pos rfl]
    split <;> simp [openDelims]
  | case1 | case2 | case4 | case5 | case6 | case7 | case8 | case9 => simp [openDelims, isClose, Event.code]

/-- R209 for the fold of R166's function: what it has open and what it closes is paid for in delimiters. -/
theorem closes_rxTableRun_le (cfg : Config) (v : RxPair) (w : List Byte) :
    2 * (rxTableRun cfg v w).2.countP isClose + openDelims (rxTableRun cfg v w).1.1
      ≤ openDelims v.1 + w.count cfg.delim := by
  induction w generalizing v with
  | nil => simp
  | cons d w ih =>
    have hstep := closes_rxTable_le cfg v d
    have hrest := ih (rxTable cfg v d).1
    have hfirst (ev : Event) : (if ev.isSome then [ev] else []).countP isClose = if isClose ev then 1 else 0 := by
      cases ev with
      | none => rfl
      | chunk p => rfl
      | condition c => cases c <;> rfl
    rw [rxTableRun_cons, List.countP_append, hfirst, List.count_cons]
    simp only [beq_iff_eq]
    omega

theorem length_events_rxTableRun_le (cfg : Config) (v : RxPair) (w : List Byte) :
    (rxTableRun cfg v w).2.length ≤ w.length := by
  induction w generalizing v with
  | nil => simp
  | cons d w ih =>
    have hrest := ih (rxTable cfg v d).1
    rw [rxTableRun_cons, List.length_append, List.length_cons]
    split
    · rw [List.length_singleton]
      omega
    · rw [List.length_nil]
      omega

/-- Settles O55: the run's events are those of the fold, which begins with no delimiter open. -/
theorem eventsAreBoundedByDelimiters : Obligations.EventsAreBoundedByDelimiters := by
  intro w s t tr hs hlen hrun
  rw [runTokens_eq_runWith] at hrun
  obtain ⟨t', tr', hrun', -, hevents⟩ :=
    (decReady_of_reset (cfg := Config.datvideo) hs hlen).runWith_streamTokens (by decide) w
  obtain rfl : tr = tr' := congrArg Prod.snd (Host.Outcome.next.inj (hrun.symm.trans hrun'))
  have hcloses := closes_rxTableRun_le Config.datvideo (.reset, []) w
  rw [← hevents, openDelims, Nat.zero_add] at hcloses
  exact ⟨(Nat.le_add_right ..).trans hcloses, hevents ▸ length_events_rxTableRun_le Config.datvideo _ w⟩

end Sys2Proof.Machine
end

section
/-! SUPPORT. Taking a condition (60_exceptions.md R232) and the report of a trace (R237). -/

namespace Sys2Proof.Machine

/-! ## Taking a condition -/

/-- R232: a received byte that gives a condition takes that condition and does nothing else. -/
theorem eq_raise_of_decRxWith {cfg : Config} {d : Byte} {s t : State} {c : Condition}
    (h : decRxWith cfg d s = .next t) (hc : t.out.event = .condition c) : t = raise c s := by
  rcases decRxWith_next_cases h with
    ⟨-, -, rfl⟩ | ⟨-, -, rfl⟩ | ⟨-, -, -, rfl⟩ | ⟨-, -, -, body, -, ⟨-, rfl⟩ | ⟨-, rfl⟩⟩ | ⟨-, -, -, rfl⟩
      | ⟨-, ⟨-, rfl⟩ | ⟨-, rfl⟩⟩ | ⟨-, -, -, rfl⟩ <;> cases hc
  · rfl
  · rfl
  · rfl
  · rfl

/-- Settles O35: `raise` writes the receive state, the length and the outputs. -/
theorem conditionEntryClearsAndResets : Obligations.ConditionEntryClearsAndResets := fun _ _ _ _ h hc =>
  eq_raise_of_decRxWith (cfg := Config.datvideo) h hc

/-! ## The trace since the last `RESET` -/

theorem sinceReset_concat (tr : List TraceEntry) (e : TraceEntry) :
    sinceReset (tr ++ [e]) = if e.instr = .reset then [] else sinceReset tr ++ [e] := by
  rw [sinceReset, List.foldl_concat]
  rfl

/-- Whatever stands before a `RESET` is forgotten, and every later entry is kept. -/
theorem sinceReset_append_reset (tr1 : List TraceEntry) {tr2 : List TraceEntry} {e : TraceEntry}
    (he : e.instr = .reset) (htr2 : ∀ x ∈ tr2, x.instr ≠ .reset) : sinceReset (tr1 ++ [e] ++ tr2) = tr2 := by
  induction tr2 using List.reverseRecOn with
  | nil => rw [List.append_nil, sinceReset_concat, if_pos he]
  | append_singleton tr2 x ih =>
    rw [← List.append_assoc, sinceReset_concat, if_neg (htr2 x (by simp)),
      ih fun y hy => htr2 y (List.mem_append_left _ hy)]

/-! ## The counts of a list of events -/

/-- R220: the code of a condition is no other event's. -/
theorem Event.code_eq_condition_iff (ev : Event) (c : Condition) :
    ev.code = (Event.condition c).code ↔ ev = .condition c := by
  cases ev with
  | none => cases c <;> simp [Event.code]
  | chunk p => cases c <;> simp [Event.code]
  | condition c' => cases c' <;> cases c <;> simp [Event.code]

/-- Counting a condition's code is counting the condition. -/
theorem countP_code_eq_count (es : List Event) (c : Condition) :
    es.countP (fun ev => ev.code == (Event.condition c).code) = es.count (.condition c) :=
  List.countP_congr fun ev _ => by simpa only [beq_iff_eq] using ev.code_eq_condition_iff c

theorem nValid_reportOf (es : List Event) : (reportOf es).nValid = (chunksIn es).length := by
  rw [chunksIn, List.length_filterMap_eq_countP]
  refine List.countP_congr fun ev _ => ?_
  cases ev with
  | none => simp [Event.code, Event.payload?]
  | chunk p => simp [Event.code, Event.payload?]
  | condition c => cases c <;> simp [Event.code, Event.payload?]

/-- R220: an event but `None` has exactly one of the five codes, and `None` has none of them. -/
theorem Event.sum_code_ite (ev : Event) :
    (if ev.code = 1 then 1 else 0) + (if ev.code = 2 then 1 else 0) + (if ev.code = 3 then 1 else 0)
      + ((if ev.code = 4 then 1 else 0) + (if ev.code = 5 then 1 else 0)) = if ev.isSome = true then 1 else 0 := by
  cases ev with
  | none => rfl
  | chunk p => rfl
  | condition c => cases c <;> rfl

/-- The four counts of a four-count report together count every event but `None` once. -/
theorem total_reportOf (es : List Event) :
    (reportOf es).nValid + (reportOf es).nShort + (reportOf es).nLong + (reportOf es).nCorrupt
      = es.countP Event.isSome := by
  induction es with
  | nil => rfl
  | cons ev es ih =>
    have hev := ev.sum_code_ite
    simp only [reportOf, Report.nCorrupt, List.countP_cons, beq_iff_eq] at ih ⊢
    omega

theorem countP_isSome_eventsOf (tr : List TraceEntry) : (eventsOf tr).countP Event.isSome = (eventsOf tr).length :=
  List.countP_eq_length.mpr fun _ hev => (List.mem_filter.mp hev).2

/-- Settles O56: the report reads the events since the last `RESET`, and a trace has none that is `None`. -/
theorem reportCountsEventsSinceReset : Obligations.ReportCountsEventsSinceReset := by
  intro tr1 tr2 e he htr2
  have hreport : reportOf (eventsOf tr2) = reportOfTrace (tr1 ++ [e] ++ tr2) := by
    rw [reportOfTrace, sinceReset_append_reset tr1 he htr2]
  exact ⟨_, hreport, nValid_reportOf _, countP_code_eq_count _ .shortFrame, countP_code_eq_count _ .longFrame,
    countP_code_eq_count _ .invalidEscape, countP_code_eq_count _ .crcMismatch,
    (total_reportOf _).trans (countP_isSome_eventsOf tr2)⟩

end Sys2Proof.Machine
end

section
/-! SUPPORT. The hazards of the stream (70_reset_and_hazards.md R270, R271, R277, R282), each read off the fold of
R166's function over the received bytes. -/

namespace Sys2Proof.Machine

/-! ## Runs on this hardware that leave an empty buffer -/

theorem decReady_of_empty {cfg : Config} {s : State} (hlen : s.len = 0) : DecReady cfg s (s.rxState, []) :=
  ⟨(stepHolds_of_empty hlen).1, fun _ => rfl⟩

/-- R27, R50: in a good state the collected bytes can be read. -/
theorem GoodState.exists_bufContents {cfg : Config} {s : State} (hg : GoodState cfg s) :
    ∃ bs, bufContents cfg s = .ok bs := by
  refine memRead_total cfg s.buf 0 s.len fun a ha => ?_
  rw [Nat.zero_add]
  exact ⟨ha.trans_le hg.lenBound, hg.collected a ha⟩

/-- A fold of R166's function that ends with an empty buffer, as a run on this hardware. -/
theorem DecReady.runTokens_of_rxTableRun {s : State} {v : RxPair} (h : DecReady Config.datvideo s v) {w : List Byte}
    {rx : RxState} {es : List Event} (hw : rxTableRun Config.datvideo v w = ((rx, []), es)) :
    ∃ t tr, runTokens (streamTokens w) s = .next (t, tr) ∧ eventsOf tr = es ∧ t.rxState = rx ∧ t.len = 0 := by
  obtain ⟨t, tr, hrun, ht, hevents⟩ := h.runWith_streamTokens (by decide) w
  rw [hw] at ht hevents
  obtain ⟨⟨hrx, hbuf⟩, -⟩ := ht
  exact ⟨t, tr, runTokens_eq_runWith ▸ hrun, hevents, hrx, (memRead_length hbuf).symm⟩

/-! ## Delimiter fill (R277) -/

/-- R160: a delimiter right after the one that opened the frame closes it as a short one. -/
theorem rxTableRun_delim_of_empty {cfg : Config} :
    rxTableRun cfg (.inFrame, []) [cfg.delim] = ((.reset, []), [.condition .shortFrame]) :=
  rxTableRun_delim_of_inFrame []

/-- R277: from `Reset` every second delimiter closes an empty frame. -/
theorem rxTableRun_replicate_delim (cfg : Config) : ∀ j : Nat,
    rxTableRun cfg (.reset, []) (List.replicate j cfg.delim)
      = ((if j % 2 = 0 then .reset else .inFrame, []), List.replicate (j / 2) (.condition .shortFrame))
  | 0 => rfl
  | 1 => rxTableRun_delim_of_reset
  | j + 2 => by
    have hpair : rxTableRun cfg (.reset, []) ([cfg.delim] ++ [cfg.delim]) = ((.reset, []), [.condition .shortFrame]) :=
      rxTableRun_append rxTableRun_delim_of_reset rxTableRun_delim_of_empty
    rw [Nat.add_mod_right, Nat.add_div_right j Nat.two_pos]
    exact rxTableRun_append hpair (rxTableRun_replicate_delim cfg j)

/-- Settles O57: the run is the fold over the delimiters. -/
theorem delimiterFillIsShortFrames : Obligations.DelimiterFillIsShortFrames := fun j _ hs hlen =>
  (decReady_of_reset hs hlen).runTokens_of_rxTableRun (rxTableRun_replicate_delim Config.datvideo j)

/-! ## Out of phase (R270, R271) -/

section
variable {cfg : Config} (hne : cfg.esc ≠ cfg.delim)
include hne

/-- R72: stuffing brings no delimiter value into a body that holds none. -/
theorem delim_notMem_flatMap_stuffed {body : List Byte} (hbody : cfg.delim ∉ body) :
    cfg.delim ∉ body.flatMap (stuffed cfg) := by
  rw [List.mem_flatMap]
  rintro ⟨b, hb, hmem⟩
  have hdelim : cfg.delim ≠ b := fun h => hbody (h ▸ hb)
  rw [stuffed] at hmem
  split at hmem
  · simp [hdelim, hne.symm] at hmem
  · simp [hdelim] at hmem

/-- R270: out of phase a frame's opening delimiter closes an empty frame, its body is hunted through, and its closing
delimiter opens the next empty frame. -/
theorem rxTableRun_frameBytes_out_of_phase {p : List Byte} (hp : cfg.delim ∉ frameBody cfg p) :
    rxTableRun cfg (.inFrame, []) (frameBytes cfg p) = ((.inFrame, []), [.condition .shortFrame]) := by
  rw [frameBytes_eq]
  exact rxTableRun_append
    (rxTableRun_append rxTableRun_delim_of_empty (rxTableRun_hunt (delim_notMem_flatMap_stuffed hne hp)))
    rxTableRun_delim_of_reset

/-- R271: each frame leaves the decoder out of phase for the next one. -/
theorem rxTableRun_flatMap_frameBytes_out_of_phase {ps : List (List Byte)}
    (hps : ∀ p ∈ ps, cfg.delim ∉ frameBody cfg p) :
    rxTableRun cfg (.inFrame, []) (ps.flatMap (frameBytes cfg))
      = ((.inFrame, []), List.replicate ps.length (.condition .shortFrame)) := by
  induction ps with
  | nil => rfl
  | cons p ps ih =>
    obtain ⟨hp, hps⟩ := List.forall_mem_cons.mp hps
    exact rxTableRun_append (rxTableRun_frameBytes_out_of_phase hne hp) (ih hps)

end

theorem chunksIn_replicate_condition (n : Nat) (c : Condition) : chunksIn (List.replicate n (.condition c)) = [] :=
  List.filterMap_replicate_of_none rfl

/-- Settles O58: the run is the fold over the frames, whose events carry no payload. -/
theorem outOfPhaseFramesAreLost : Obligations.OutOfPhaseFramesAreLost := by
  intro ps s hs hlen hps
  obtain ⟨t, tr, hrun, hevents, ht⟩ := (hs ▸ decReady_of_empty hlen).runTokens_of_rxTableRun
    (rxTableRun_flatMap_frameBytes_out_of_phase (by decide) hps)
  exact ⟨t, tr, fun p _ => encodeFrame_datvideo p, hrun, hevents, hevents ▸ chunksIn_replicate_condition .., ht⟩

/-! ## Fill that forces `Reset` (R282) -/

section
variable {cfg : Config} {d : Byte} (hd : d ≠ cfg.delim)
include hd

/-- R159: `ESC` does not protect a byte that is neither reserved value. -/
theorem rxTableRun_other_of_inEscape (he : d ≠ cfg.esc) (bs : List Byte) :
    rxTableRun cfg (.inEscape, bs) [d] = ((.reset, []), [.condition .invalidEscape]) := by
  rw [rxTableRun_singleton, rxTable, if_neg (not_or.mpr ⟨hd, he⟩)]
  rfl

variable (hne : cfg.esc ≠ cfg.delim)
include hne

/-- R282: once the first byte has led to `Reset`, the other two are discarded. -/
theorem rxTableRun_fill_of_first {v : RxPair} {es : List Event} (hfirst : rxTableRun cfg v [d] = ((.reset, []), es)) :
    rxTableRun cfg v [d, cfg.esc, d] = ((.reset, []), es) := by
  have hrest : rxTableRun cfg (.reset, []) [cfg.esc, d] = ((.reset, []), []) :=
    rxTableRun_hunt (by simp [hd.symm, hne.symm])
  rw [← List.append_nil es]
  exact rxTableRun_append hfirst hrest

variable (he : d ≠ cfg.esc)
include he

/-- R282 from `InEscape`. -/
theorem rxTableRun_fill_of_inEscape (bs : List Byte) :
    rxTableRun cfg (.inEscape, bs) [d, cfg.esc, d] = ((.reset, []), [.condition .invalidEscape]) :=
  rxTableRun_fill_of_first hd hne (rxTableRun_other_of_inEscape hd he bs)

/-- R282 from a frame whose buffer is full. -/
theorem rxTableRun_fill_of_full {bs : List Byte} (hfull : cfg.maxFrame < bs.length + 1) :
    rxTableRun cfg (.inFrame, bs) [d, cfg.esc, d] = ((.reset, []), [.condition .longFrame]) := by
  refine rxTableRun_fill_of_first hd hne ?_
  rw [rxTableRun_singleton, rxTable_of_full (.inl ⟨rfl, hd, he⟩) hfull]
  rfl

/-- R282 from a frame with room: the first byte is appended, and the escape of the last one is invalid. -/
theorem rxTableRun_fill_of_room {bs : List Byte} (hroom : bs.length + 1 ≤ cfg.maxFrame) :
    rxTableRun cfg (.inFrame, bs) [d, cfg.esc, d] = ((.reset, []), [.condition .invalidEscape]) := by
  have hliteral : stuffed cfg d = [d] := stuffed_of_not_reserved (by simp [reserved, hd, he])
  have happend : rxTableRun cfg (.inFrame, bs) [d] = ((.inFrame, bs ++ [d]), []) :=
    hliteral ▸ rxTableRun_stuffed hne d hroom
  have hescape : rxTableRun cfg (.inFrame, bs ++ [d]) [cfg.esc] = ((.inEscape, bs ++ [d]), []) := by
    rw [rxTableRun_singleton, rxTable, if_neg hne, if_pos rfl]
    rfl
  exact rxTableRun_append (rxTableRun_append happend hescape) (rxTableRun_other_of_inEscape hd he _)

end

/-- Settles O59: one fold for each receive state, and in a frame one for each outcome of the size test. -/
theorem fillForcesReset : Obligations.FillForcesReset := by
  intro s hg
  obtain ⟨bs, hbs⟩ := hg.exists_bufContents
  have hready : DecReady Config.datvideo s (s.rxState, bs) := hg.decReady ⟨rfl, hbs⟩
  have hlength : bs.length = s.len := memRead_length hbs
  have hne : Config.datvideo.esc ≠ Config.datvideo.delim := by decide
  have hd : 0x00#8 ≠ Config.datvideo.delim := by decide
  have he : 0x00#8 ≠ Config.datvideo.esc := by decide
  suffices hfold : rxTableRun Config.datvideo (s.rxState, bs) [0x00#8, 0x7D#8, 0x00#8] = ((.reset, []), _) by
    obtain ⟨t, tr, hrun, hevents, hrx, hlen⟩ := hready.runTokens_of_rxTableRun hfold
    exact ⟨t, tr, hrun, hrx, hlen, hevents⟩
  cases hs : s.rxState with
  | reset =>
    rw [List.eq_nil_of_length_eq_zero (hlength.trans (hg.emptyInReset hs))]
    exact rxTableRun_hunt (by decide)
  | inFrame =>
    dsimp only
    split
    · next hfull => exact rxTableRun_fill_of_full hd hne he (hlength.symm ▸ hfull)
    · next hroom => exact rxTableRun_fill_of_room hd hne he (hlength.symm ▸ Nat.not_lt.mp hroom)
  | inEscape => exact rxTableRun_fill_of_inEscape hd hne he bs

end Sys2Proof.Machine
end
